-- ==== Sys2Proof/Word.lean ====
section
/-! DEFINITION. The two kinds of datum the block handles: the byte (spec rule R8) and the line level (rule R7). -/

namespace Sys2Proof

/-- Eight unsigned bits, bit 0 the least significant (00_scope.md R8). -/
abbrev Byte := BitVec 8

/-- The level of a line: two values and no intermediate state (00_scope.md R7). -/
inductive Level where
  | low
  | high
  deriving DecidableEq, Repr, Inhabited

end Sys2Proof
end

