-- ==== Sys2Proof/Syntax.lean ====
section
/-! DEFINITION. The seven operations, which stand where an instruction set has instructions (00_scope.md R11,
30_encoding.md R78), the forms they are carried in, and what the environment presents to the block at one tick. -/

namespace Sys2Proof

/-- The operations of 30_encoding.md R78, one constructor for each row of spec/opcode_table.json. -/
inductive Instr where
  /-- DECODE (40_decode.md R98). Bit `i` of `d` is the level the detector line gives for data symbol `d_i`,
  the table's fields a..h; one tick looks at one of them at most. -/
  | decode (d : Byte)
  /-- PUBLISH, the last step of DECODE (40_decode.md R95 to R97). -/
  | publish
  /-- ENCODE of the byte `b` (41_encode.md R110), which the transmit engine holds in TX_CUR. -/
  | encode (b : Byte)
  /-- SEQ of the buffer `buf` (42_sequencer.md R126), which the transmit engine holds in TX_BUF. -/
  | seq (buf : List Byte)
  /-- READ (43_endpoint.md R140): one look at RD_DATA. -/
  | read
  /-- WRITE of `buf` (43_endpoint.md R141). -/
  | write (buf : List Byte)
  /-- RESET (70_reset_and_hazards.md R190). -/
  | reset
  deriving DecidableEq, Repr

/-- The two lines (60_exceptions.md R179). -/
inductive Line where
  | detector
  | emitter
  deriving DecidableEq, Repr

/-- The "format" column of spec/opcode_table.json. -/
inductive Format where
  | frame10
  | internal
  | frameTrain
  | endpoint
  | pin
  deriving DecidableEq, Repr

/-- The form in which an operation is carried. Only frames have bits (30_encoding.md R70, R78): a frame is its ten
symbols read as one number, the first symbol in time the most significant bit, LOW 0 and HIGH 1. -/
inductive Form where
  /-- A frame on a line: the detector's is DECODE's, the emitter's is ENCODE's. -/
  | frame10 (line : Line) (symbols : BitVec 10)
  /-- Nothing outside the block: PUBLISH. -/
  | internal
  /-- Frames on the emitter line in order: SEQ. -/
  | frameTrain (frames : List (BitVec 10))
  /-- A look at RD_DATA: READ. -/
  | endpointRead
  /-- A buffer on WR: WRITE. -/
  | endpointWrite (bytes : List Byte)
  /-- RST = 1: RESET. -/
  | pin
  deriving DecidableEq, Repr

/-- The format of a form. -/
def Form.format : Form → Format
  | .frame10 _ _ => .frame10
  | .internal => .internal
  | .frameTrain _ => .frameTrain
  | .endpointRead => .endpoint
  | .endpointWrite _ => .endpoint
  | .pin => .pin

/-- The format the operation's row of spec/opcode_table.json gives it. -/
def Instr.format : Instr → Format
  | .decode _ => .frame10
  | .publish => .internal
  | .encode _ => .frame10
  | .seq _ => .frameTrain
  | .read => .endpoint
  | .write _ => .endpoint
  | .reset => .pin

/-- What drives the detector line at a tick: a level (10_state.md R34), or the block's own emitter, the loopback of
30_encoding.md R82 and 44_block_step.md R159. -/
inductive DetDrive where
  | level (l : Level)
  | loopback
  deriving DecidableEq, Repr, Inhabited

/-- The environment's choices for one tick (10_state.md R34, R37; 44_block_step.md R158). -/
structure Input where
  /-- What drives DET. -/
  det : DetDrive
  /-- WR: absent, or the buffer a writer offers. -/
  wr : Option (List Byte)
  /-- RST. -/
  rst : Bool
  /-- How many readers look at RD_DATA at this tick (43_endpoint.md R144). -/
  readers : Nat
  deriving DecidableEq, Repr, Inhabited

end Sys2Proof
end

