-- ==== Sys2Proof/WellFormed.lean ====
section
/-! DEFINITION. Which operations have operands the spec gives them. -/

namespace Sys2Proof

/-- SEQ takes a buffer of at least one byte (42_sequencer.md R125). Every other operand is legal: every byte value
(30_encoding.md R79, R80) and, for WRITE, every length (43_endpoint.md R142). -/
def Instr.wellFormed : Instr → Bool
  | .decode _ => true
  | .publish => true
  | .encode _ => true
  | .seq buf => !buf.isEmpty
  | .read => true
  | .write _ => true
  | .reset => true

end Sys2Proof
end

