-- ==== Sys2Proof/Decode.lean ====
section
/-! DEFINITION. The frame of 30_encoding.md R70 as bits, decoding a form to its operation, and encoding. -/

namespace Sys2Proof

/-- `level(b)` of 00_scope.md R7: a set bit is HIGH. -/
def levelOfBit (b : Bool) : Level :=
  match b with
  | true => .high
  | false => .low

/-- `bit(l)` of 00_scope.md R7. -/
def bitOfLevel (l : Level) : Bool :=
  match l with
  | .high => true
  | .low => false

/-- `0 d0 d1 d2 d3 d4 d5 d6 d7 1`, the pattern of 30_encoding.md R70, first symbol leftmost. -/
def frameWord (b : Byte) : BitVec 10 :=
  BitVec.ofBool false ++ BitVec.ofBool (b.getLsbD 0) ++ BitVec.ofBool (b.getLsbD 1) ++ BitVec.ofBool (b.getLsbD 2)
    ++ BitVec.ofBool (b.getLsbD 3) ++ BitVec.ofBool (b.getLsbD 4) ++ BitVec.ofBool (b.getLsbD 5)
    ++ BitVec.ofBool (b.getLsbD 6) ++ BitVec.ofBool (b.getLsbD 7) ++ BitVec.ofBool true

/-- The byte whose bit `i` is data symbol `d_i` of the frame `w` (30_encoding.md R72): `d_7` is the last data symbol. -/
def frameData (w : BitVec 10) : Byte :=
  BitVec.ofBool (w.getLsbD 1) ++ BitVec.ofBool (w.getLsbD 2) ++ BitVec.ofBool (w.getLsbD 3)
    ++ BitVec.ofBool (w.getLsbD 4) ++ BitVec.ofBool (w.getLsbD 5) ++ BitVec.ofBool (w.getLsbD 6)
    ++ BitVec.ofBool (w.getLsbD 7) ++ BitVec.ofBool (w.getLsbD 8)

/-- The level of the first symbol. -/
def frameStart (w : BitVec 10) : Level := levelOfBit (w.getLsbD 9)

/-- The level of the last symbol. -/
def frameStop (w : BitVec 10) : Level := levelOfBit (w.getLsbD 0)

/-- Why a form is no operation's. -/
inductive Reject where
  /-- The first symbol on the detector line is not LOW: there is no falling edge, so no DECODE (40_decode.md R90). -/
  | noFallingEdge
  /-- A pattern ENCODE never drives: its start is not LOW or its stop is not HIGH (41_encode.md R111, R113). -/
  | notAFrame
  /-- A train of no frames: SEQ takes at least one byte (42_sequencer.md R125). -/
  | emptyTrain
  deriving DecidableEq, Repr

/-- The byte of a frame on the emitter line, whose start is LOW and whose stop is HIGH (30_encoding.md R70). -/
def decodeEmitted (w : BitVec 10) : Except Reject Byte :=
  match frameStart w, frameStop w with
  | .low, .high => .ok (frameData w)
  | .low, .low => .error .notAFrame
  | .high, _ => .error .notAFrame

/-- The bytes of a train of frames, in order. -/
def decodeTrain : List (BitVec 10) → Except Reject (List Byte)
  | [] => .ok []
  | w :: ws =>
    match decodeEmitted w with
    | .error r => .error r
    | .ok b =>
      match decodeTrain ws with
      | .error r => .error r
      | .ok bs => .ok (b :: bs)

/-- The operation a form carries. On the detector line only the falling edge and the eight data symbols count: the stop
symbol is not looked at (30_encoding.md R80). -/
def decodeForm : Form → Except Reject Instr
  | .frame10 .detector w =>
    match frameStart w with
    | .low => .ok (.decode (frameData w))
    | .high => .error .noFallingEdge
  | .frame10 .emitter w =>
    match decodeEmitted w with
    | .ok b => .ok (.encode b)
    | .error r => .error r
  | .internal => .ok .publish
  | .frameTrain [] => .error .emptyTrain
  | .frameTrain (w :: ws) =>
    match decodeTrain (w :: ws) with
    | .ok buf => .ok (.seq buf)
    | .error r => .error r
  | .endpointRead => .ok .read
  | .endpointWrite bytes => .ok (.write bytes)
  | .pin => .ok .reset

/-- The form of an operation (the "format" and "encoding" columns of spec/opcode_table.json). -/
def encode : Instr → Form
  | .decode d => .frame10 .detector (frameWord d)
  | .publish => .internal
  | .encode b => .frame10 .emitter (frameWord b)
  | .seq buf => .frameTrain (buf.map frameWord)
  | .read => .endpointRead
  | .write buf => .endpointWrite buf
  | .reset => .pin

/-- The operation read from a row's bits. The rows of DECODE and ENCODE share one pattern of ten symbols and no other row
has bits (30_encoding.md R78); the block receives a frame on its detector line only, so a frame read is DECODE's. A width
that holds no frame, and a number wider than a frame, read as nothing. DESIGN CHOICE, log entry 9. -/
def decodeTableWord (nbits w : Nat) : Option Instr :=
  if (nbits = 10 ∨ nbits = 16) ∧ w < 1024 then
    match decodeForm (.frame10 .detector (BitVec.ofNat 10 w)) with
    | .ok i => some i
    | .error _ => none
  else none

end Sys2Proof
end

