-- ==== Sys2Proof/Config.lean ====
section
/-! DEFINITION. What the spec leaves open: the constants here have no value that Lean can see, so what is proved holds
whatever they are. -/

namespace Sys2Proof

/-- RXREG_RESET, the value the Receive Register takes at a reset: any byte, drawn once for each reset (00_scope.md R6,
10_state.md R44, 70_reset_and_hazards.md R193). The argument numbers the draw. FREE VALUE, log entry 4. -/
opaque Config.rxregReset : Nat → Byte

/-- The environment's choice at a tick for which no input is listed (44_block_step.md R158: it chooses DET, WR and RST
freely). The argument numbers the tick. FREE VALUE, log entry 2. -/
opaque Config.freeInput : Nat → Input

/-- ENDPOINT_PATH, where the host finds the attribute `network` (20_memory.md R56): no rule reads it. Log entry 12. -/
opaque Config.endpointPath : String

end Sys2Proof
end

