-- ==== Sys2Proof/Machine/State.lean ====
section
/-! DEFINITION. The state: the spec's closed list of elements (10_state.md R20) as the receive and the transmit engine's
registers, and the model's own fields for the parameter K, the environment's inputs, time and what was observed. -/

namespace Sys2Proof.Machine

/-- RX_PHASE (10_state.md R25). -/
inductive RxPhase where
  /-- R_IDLE: no decode in flight. -/
  | idle
  /-- R_SETTLE: waiting out the settle delay before sample 0. -/
  | settle
  /-- R_WAIT: sample RX_BIT has been taken and the unit interval after it is being waited out. -/
  | wait
  deriving DecidableEq, Repr

/-- TX_PHASE (10_state.md R29). -/
inductive TxPhase where
  /-- T_IDLE: no write in progress. -/
  | idle
  /-- T_START: holding the start symbol. -/
  | start
  /-- T_DATA: holding data symbol TX_BIT. -/
  | data
  /-- T_STOP: holding the stop symbol. -/
  | stop
  /-- T_COOL: holding the inter-byte cooldown. -/
  | cool
  deriving DecidableEq, Repr

/-- The receive elements of 10_state.md R20. -/
structure Receive where
  /-- RXREG, the Receive Register (R21). -/
  reg : Byte
  /-- RX_ACC, the accumulator (R22). -/
  acc : Byte
  /-- RX_BIT, the sample most recently taken (R23). -/
  bit : Fin 8
  /-- RX_CNT, the interval counter (R24). -/
  cnt : Nat
  /-- RX_PHASE (R25). -/
  phase : RxPhase
  /-- RX_ARMED, the interrupt enable (R26). -/
  armed : Bool
  /-- DET_PREV, the level DET had at the previous tick (R27). -/
  detPrev : Level
  deriving DecidableEq, Repr

/-- The transmit elements of 10_state.md R20. -/
structure Transmit where
  /-- EMIT, the level driven on the emitter line (R28). -/
  emit : Level
  /-- TX_PHASE (R29). -/
  phase : TxPhase
  /-- TX_BIT, the data symbol on the line (R30). -/
  bit : Fin 8
  /-- TX_CNT, the interval counter (R31). -/
  cnt : Nat
  /-- TX_CUR, the byte being sent (R32). -/
  cur : Byte
  /-- TX_BUF, the block's copy of the buffer (R33). -/
  buf : List Byte
  /-- TX_IDX, the index of the byte being sent (R33). -/
  idx : Nat
  deriving DecidableEq, Repr

/-- The events a step may emit (10_state.md R36). -/
inductive Event where
  /-- RX_START: a decode is entered. -/
  | rxStart
  /-- RX_DONE(v): a decode published `v`. -/
  | rxDone (v : Byte)
  /-- TX_SENT(v): the stop symbol of `v` ended. -/
  | txSent (v : Byte)
  /-- WR_DONE(c): a write of `c` bytes is complete. -/
  | wrDone (c : Nat)
  deriving DecidableEq, Repr

/-- What an onlooker sees happen in a tick: an event, or the byte one READ returned (44_block_step.md R160). -/
inductive Observation where
  | event (e : Event)
  | readData (v : Byte)
  deriving DecidableEq, Repr

/-- The machine. `rx` and `tx` are the spec's state; the other fields are the model's own. -/
structure State where
  /-- K, the tick scale (00_scope.md R6): constant, no step changes it. Log entry 3. -/
  tickScale : Nat
  /-- The receive elements. -/
  rx : Receive
  /-- The transmit elements. -/
  tx : Transmit
  /-- The environment's choices for this tick and the next ones; after the last, Config.freeInput chooses. Log entry 2. -/
  inputs : List Input
  /-- Ticks since the machine began; numbers the free values and stamps the log. Log entry 5. -/
  clock : Nat
  /-- The spec's tick number n (00_scope.md R9): 0 in the reset state, counted from the release of reset. Log entry 5. -/
  tick : Nat
  /-- What was observed, newest first, each with the clock of its tick. Log entry 6. -/
  log : List (Nat × Observation)
  deriving DecidableEq, Repr

/-- There is no fault: nothing the block does can fault or be stuck (60_exceptions.md R165, 44_block_step.md R155). -/
inductive Fault where
  deriving DecidableEq, Repr

/-- The refusals of exec. -/
inductive Refusal where
  /-- Raised by exec's arm of an operation that has no meaning yet; safe. No arm of this model raises it. -/
  | notModelled (mnemonic : String)
  deriving DecidableEq, Repr

/-- The receive elements after a reset that draws `reg` for RXREG_RESET (10_state.md R44). -/
def Receive.reset (reg : Byte) : Receive where
  reg := reg
  acc := 0#8
  bit := 0
  cnt := 0
  phase := .idle
  armed := true
  detPrev := .low

/-- The transmit elements after a reset (10_state.md R44). -/
def Transmit.reset : Transmit where
  emit := .high
  phase := .idle
  bit := 0
  cnt := 0
  cur := 0#8
  buf := []
  idx := 0

/-- The machine right after reset (10_state.md R44), at the reference K = 1, with nothing yet presented or observed. -/
def State.reset : State where
  tickScale := 1
  rx := Receive.reset (Config.rxregReset 0)
  tx := Transmit.reset
  inputs := []
  clock := 0
  tick := 0
  log := []

end Sys2Proof.Machine
end

