-- ==== Sys2Proof/Machine/Operands.lean ====
section
/-! DEFINITION. The tick counts, and the operand forms: a data symbol of a byte, the level a frame gives the decoder, and
the accumulation of a sample (00_scope.md R6, 30_encoding.md R70, R76, R77). -/

namespace Sys2Proof.Machine

/-- N_UNIT, the ticks of one unit interval (00_scope.md R6). -/
def nUnit (k : Nat) : Nat := 6 * k

/-- N_SETTLE, the ticks of the settle delay (00_scope.md R6). -/
def nSettle (k : Nat) : Nat := 9 * k

/-- N_COOLDOWN, the ticks of the inter-byte cooldown (00_scope.md R6). -/
def nCooldown (k : Nat) : Nat := 200 * k

/-- P, the ticks of one byte of a write (30_encoding.md R75). -/
def bytePeriod (k : Nat) : Nat := 10 * nUnit k + nCooldown k

/-- The ticks from the start edge to PUBLISH (40_decode.md R94). -/
def decodeTicks (k : Nat) : Nat := nSettle k + 8 * nUnit k

/-- `level(b[i])`, data symbol `i` of the byte `b` (30_encoding.md R71, R77). -/
def dataSymbol (b : Byte) (i : Fin 8) : Level := levelOfBit (b.getLsbD i.val)

/-- Symbol `j` of the frame of `b` in time order: start, `d_0` to `d_7`, stop; past the frame the line rests HIGH
(30_encoding.md R70, R73). -/
def frameSymbol (b : Byte) (j : Nat) : Level :=
  if j = 0 then .low
  else if j ≤ 8 then levelOfBit (b.getLsbD (j - 1))
  else .high

/-- `zext_8(l)` (00_scope.md R10). -/
def zext8 (l : Level) : Byte := (BitVec.ofBool (bitOfLevel l)).setWidth 8

/-- `acc | (zext_8(l) << i)` (30_encoding.md R77). -/
def accumulate (acc : Byte) (i : Fin 8) (l : Level) : Byte := acc ||| (zext8 l <<< i.val)

/-- The eight data levels of a line that holds the level `l`. -/
def lineHeld (l : Level) : Byte :=
  match l with
  | .low => 0x00#8
  | .high => 0xFF#8

/-- The next data symbol after symbol `i`, if there is one. -/
def nextSymbol (i : Fin 8) : Option (Fin 8) :=
  if h : i.val < 7 then some ⟨i.val + 1, Nat.succ_lt_succ h⟩ else none

/-- The level the frame with data levels `d` shows where the receive engine stands: its start symbol before a decode,
the data symbol that is sampled next, and its stop symbol after the last (30_encoding.md R76). -/
def levelPresented (d : Byte) (rx : Receive) : Level :=
  match rx.phase with
  | .idle => .low
  | .settle => dataSymbol d 0
  | .wait =>
    match nextSymbol rx.bit with
    | some i => dataSymbol d i
    | none => .high

/-- The level of DET when the emitter shows `emit` (10_state.md R34, 44_block_step.md R159). -/
def detLevel (drive : DetDrive) (emit : Level) : Level :=
  match drive with
  | .level l => l
  | .loopback => emit

end Sys2Proof.Machine
end

