-- ==== Sys2Proof/Machine/Flags.lean ====
section
/-! DEFINITION. The status bits, the outputs and the conditions on one tick that select operations (10_state.md R35, R40;
30_encoding.md R78). There are no condition codes. -/

namespace Sys2Proof.Machine

/-- `edge`: the interrupt is enabled and DET falls (40_decode.md R90). -/
def edge (rx : Receive) (det : Level) : Bool :=
  rx.armed && decide (rx.detPrev = .high) && decide (det = .low)

/-- The condition that selects PUBLISH (30_encoding.md R78); 40_decode.md R98 takes it when RX_CNT is not above 1. -/
def publishDue (rx : Receive) : Bool :=
  decide (rx.phase = .wait) && (nextSymbol rx.bit).isNone && decide (rx.cnt ≤ 1)

/-- WR_READY (10_state.md R35). -/
def wrReady (tx : Transmit) : Bool := decide (tx.phase = .idle)

/-- RX_BUSY (10_state.md R35). -/
def rxBusy (rx : Receive) : Bool := !decide (rx.phase = .idle)

/-- The output ports (10_state.md R35). -/
structure Outputs where
  emit : Level
  rdData : Byte
  wrReady : Bool
  rxBusy : Bool
  deriving DecidableEq, Repr

/-- The output ports at a tick are a function of the state at that tick (44_block_step.md R156). -/
def outputs (s : State) : Outputs where
  emit := s.tx.emit
  rdData := s.rx.reg
  wrReady := wrReady s.tx
  rxBusy := rxBusy s.rx

end Sys2Proof.Machine
end

