-- ==== Sys2Proof/Machine/Ops.lean ====
section
/-! DEFINITION. The named operations over the registers: taking the edge interrupt and returning from it, sampling, starting
a frame, driving its symbols, holding, and what an onlooker is shown. -/

namespace Sys2Proof.Machine

/-- The state with other receive elements. -/
def State.setRx (s : State) (rx : Receive) : State := { s with rx := rx }

/-- The state with other transmit elements. -/
def State.setTx (s : State) (tx : Transmit) : State := { s with tx := tx }

/-- The state after `o` was observed at this tick. -/
def State.observe (s : State) (o : Observation) : State := { s with log := (s.clock, o) :: s.log }

/-- `emit E` for each event of the list, in order (00_scope.md R10). -/
def State.emitAll (s : State) : List Event → State
  | [] => s
  | e :: es => (s.observe (.event e)).emitAll es

/-- Taking the edge interrupt, which is the entry of DECODE (40_decode.md R91, 60_exceptions.md R174): the source is
masked, the accumulator cleared and the settle wait started. Nothing is saved. -/
def Receive.takeEdge (k : Nat) (rx : Receive) : Receive :=
  { rx with armed := false, acc := 0x00#8, bit := 0, phase := .settle, cnt := nSettle k }

/-- The return from the edge interrupt, which is PUBLISH (40_decode.md R95, R96; 60_exceptions.md R175): the byte is
written in one step, the source unmasked, and nothing restored. -/
def Receive.returnFromEdge (rx : Receive) : Receive :=
  { rx with reg := rx.acc, armed := true, phase := .idle }

/-- Sample `i` of the line level `det` (40_decode.md R93). -/
def Receive.sample (k : Nat) (i : Fin 8) (det : Level) (rx : Receive) : Receive :=
  { rx with acc := accumulate rx.acc i det, bit := i, cnt := nUnit k, phase := .wait }

/-- One tick of a receive wait (40_decode.md R92). -/
def Receive.countDown (rx : Receive) : Receive := { rx with cnt := rx.cnt - 1 }

/-- The first tick of a frame of byte `b`, number `i` of the buffer: the start symbol (41_encode.md R111, R115). -/
def Transmit.startFrame (k : Nat) (i : Nat) (b : Byte) (tx : Transmit) : Transmit :=
  { tx with idx := i, cur := b, emit := .low, phase := .start, cnt := nUnit k }

/-- The first tick of data symbol `i` of `b` (41_encode.md R112). -/
def Transmit.driveData (k : Nat) (b : Byte) (i : Fin 8) (tx : Transmit) : Transmit :=
  { tx with emit := dataSymbol b i, phase := .data, bit := i, cnt := nUnit k }

/-- The first tick of the stop symbol (41_encode.md R113). -/
def Transmit.driveStop (k : Nat) (tx : Transmit) : Transmit :=
  { tx with emit := .high, phase := .stop, cnt := nUnit k }

/-- The first tick of the cooldown; EMIT keeps the stop symbol's level (42_sequencer.md R128). -/
def Transmit.startCooldown (k : Nat) (tx : Transmit) : Transmit :=
  { tx with phase := .cool, cnt := nCooldown k }

/-- The end of a write (42_sequencer.md R129). -/
def Transmit.finish (tx : Transmit) : Transmit := { tx with phase := .idle }

/-- One tick of a transmit hold (41_encode.md R115). -/
def Transmit.countDown (tx : Transmit) : Transmit := { tx with cnt := tx.cnt - 1 }

end Sys2Proof.Machine
end

