-- ==== Sys2Proof/Machine/Select.lean ====
section
/-! DEFINITION. The operation map of 30_encoding.md R78: which operations one tick runs. It stands where an instruction
set has its fetch. -/

namespace Sys2Proof.Machine

/-- The environment's choice for this tick: the next listed input, and a free one when none is listed. -/
def currentInput (s : State) : Input :=
  match s.inputs with
  | [] => Config.freeInput s.clock
  | inp :: _ => inp

/-- DET at this tick under the input `inp`. -/
def detOf (inp : Input) (s : State) : Level := detLevel inp.det s.tx.emit

/-- The receive engine's operation: DECODE from its edge to its last sample's wait, then PUBLISH (30_encoding.md R78).
The line shows every data symbol the one level it has at this tick. -/
def selectReceive (det : Level) (rx : Receive) : List Instr :=
  if publishDue rx then [.publish]
  else if decide (rx.phase = .idle) && !edge rx det then []
  else [.decode (lineHeld det)]

/-- The transmit engine's operation: an accepted WRITE, ENCODE to the last but one tick of the stop symbol, then SEQ to
the end of the cooldown (30_encoding.md R78, 42_sequencer.md R133). -/
def selectTransmit (wr : Option (List Byte)) (tx : Transmit) : List Instr :=
  match tx.phase with
  | .idle =>
    match wr with
    | none => []
    | some buf => [.write buf]
  | .start => [.encode tx.cur]
  | .data => [.encode tx.cur]
  | .stop => if tx.cnt > 1 then [.encode tx.cur] else [.seq tx.buf]
  | .cool => [.seq tx.buf]

/-- The operations of one tick in the order they are run: the READs, which see the old RXREG (20_memory.md R58), then
transmit before receive (44_block_step.md R157); a RESET leaves no room for the engines (60_exceptions.md R173). -/
def selected (inp : Input) (s : State) : List Instr :=
  List.replicate inp.readers .read
    ++ (match inp.rst with
        | true => [.reset]
        | false => selectTransmit inp.wr s.tx ++ selectReceive (detOf inp s) s.rx)

end Sys2Proof.Machine
end

