-- ==== Sys2Proof/Machine/Present.lean ====
section
/-! DEFINITION. How an operation is brought about at the next tick: the inputs it is presented on, and the engine standing
where the operation is selected (30_encoding.md R78, R82). -/

namespace Sys2Proof.Machine

/-- A tick at which nothing is presented: the line at rest, no writer, no reset, no reader. -/
def quietInput : Input where
  det := .level .high
  wr := none
  rst := false
  readers := 0

/-- The inputs of a frame with data levels `d` on the detector line, from symbol `j` on, `n` symbols, each held N_UNIT
ticks (30_encoding.md R70). -/
def frameInputs (k : Nat) (d : Byte) : Nat → Nat → List Input
  | _, 0 => []
  | j, n + 1 => List.replicate (nUnit k) { quietInput with det := .level (frameSymbol d j) } ++ frameInputs k d (j + 1) n

/-- The state with both engines idle and the interrupt enabled, the line having been at rest. -/
def quiet (s : State) : State :=
  { s with
    rx := { s.rx with phase := .idle, armed := true, detPrev := .high }
    tx := { s.tx with emit := .high, phase := .idle } }

/-- The state in which the next tick runs `i` and no other operation. DECODE is presented as its frame on the detector
line; PUBLISH at the end of the last sample's wait; ENCODE at the first tick of its start symbol; SEQ at the last tick of
its first byte's stop symbol; READ, WRITE and RESET on their ports. Log entry 9. -/
def present (i : Instr) (s : State) : State :=
  let q := quiet s
  match i with
  | .decode d => { q with inputs := frameInputs s.tickScale d 0 10 }
  | .publish =>
    { q with rx := { q.rx with phase := .wait, bit := 7, cnt := 1, armed := false }, inputs := [quietInput] }
  | .encode b =>
    { q with tx := Transmit.startFrame s.tickScale 0 b { q.tx with buf := [b] }, inputs := [quietInput] }
  | .seq buf =>
    { q with
      tx := { q.tx with phase := .stop, cnt := 1, cur := buf.headD 0#8, buf := buf, idx := 0 }, inputs := [quietInput] }
  | .read => { q with inputs := [{ quietInput with readers := 1 }] }
  | .write buf => { q with inputs := [{ quietInput with wr := some buf }] }
  | .reset => { q with inputs := [{ quietInput with rst := true }] }

/-- The state in which the next tick runs the operation read from a row's bits; unchanged where they read as none. -/
def presentTableWord (s : State) (nbits w : Nat) : State :=
  match decodeTableWord nbits w with
  | some i => present i s
  | none => s

end Sys2Proof.Machine
end

