-- ==== Sys2Proof/Machine/Endpoint.lean ====
section
/-! DEFINITION. The meanings of READ and WRITE (43_endpoint.md). -/

namespace Sys2Proof.Machine

/-- READ: the byte returned is RXREG; no state of the block changes (43_endpoint.md R140). -/
def execRead (s : State) : Host.Outcome State Fault Refusal :=
  .next (s.observe (.readData s.rx.reg))

/-- WRITE of `buf`: accepted when the transmit engine is idle, and without effect when it is not (42_sequencer.md R132 to
R134). The buffer is copied whole (20_memory.md R64). -/
def execWrite (buf : List Byte) (s : State) : Host.Outcome State Fault Refusal :=
  if wrReady s.tx then
    match buf with
    | [] => .next (s.emitAll [.wrDone 0])
    | b :: bs => .next (s.setTx (Transmit.startFrame s.tickScale 0 b { s.tx with buf := b :: bs }))
  else .next s

end Sys2Proof.Machine
end

