-- ==== Sys2Proof/Machine/Receiver.lean ====
section
/-! DEFINITION. The meanings of DECODE and PUBLISH (40_decode.md). Each is the work of the operation in one tick; where
the operation is not selected and not in flight it does nothing (30_encoding.md R78). DET_PREV is the tick's, not theirs. -/

namespace Sys2Proof.Machine

/-- One tick of the receive engine with the line at `det`, up to the PUBLISH that ends it (40_decode.md R98). -/
def decodeTick (k : Nat) (det : Level) (rx : Receive) : Receive × List Event :=
  match rx.phase with
  | .idle => if edge rx det then (rx.takeEdge k, [.rxStart]) else (rx, [])
  | .settle => if rx.cnt > 1 then (rx.countDown, []) else (rx.sample k 0 det, [])
  | .wait =>
    if rx.cnt > 1 then (rx.countDown, [])
    else
      match nextSymbol rx.bit with
      | some i => (rx.sample k i det, [])
      | none => (rx.returnFromEdge, [.rxDone rx.acc])

/-- DECODE with data levels `d` (40_decode.md R90 to R94, R98). -/
def execDecode (d : Byte) (s : State) : Host.Outcome State Fault Refusal :=
  let r := decodeTick s.tickScale (levelPresented d s.rx) s.rx
  .next ((s.setRx r.1).emitAll r.2)

/-- PUBLISH (40_decode.md R95 to R97). -/
def execPublish (s : State) : Host.Outcome State Fault Refusal :=
  if publishDue s.rx then .next ((s.setRx s.rx.returnFromEdge).emitAll [.rxDone s.rx.acc])
  else .next s

end Sys2Proof.Machine
end

