-- ==== Sys2Proof/Machine/Reset.lean ====
section
/-! DEFINITION. The meaning of RESET (70_reset_and_hazards.md R190 to R193). -/

namespace Sys2Proof.Machine

/-- RXREG_RESET of this reset: a reset that is only held on (tick 0) keeps the value drawn when it began, and a new one
draws a new value (10_state.md R44, 70_reset_and_hazards.md R190, R193). Log entry 4. -/
def rxregResetFor (s : State) : Byte :=
  if s.tick = 0 then s.rx.reg else Config.rxregReset (s.clock + 1)

/-- RESET: both engines take the reset state, whatever they were doing, and no event is emitted. -/
def execReset (s : State) : Host.Outcome State Fault Refusal :=
  .next { s with rx := Receive.reset (rxregResetFor s), tx := Transmit.reset, tick := 0 }

end Sys2Proof.Machine
end

