-- ==== Sys2Proof/Machine/Transmitter.lean ====
section
/-! DEFINITION. The meanings of ENCODE (41_encode.md) and SEQ (42_sequencer.md). Each is the work of the operation in one
tick; where the operation is not in progress it does nothing (30_encoding.md R78). -/

namespace Sys2Proof.Machine

/-- One tick of ENCODE of `b` (41_encode.md R115). The last tick of the stop symbol is SEQ's (42_sequencer.md R133). -/
def encodeTick (k : Nat) (b : Byte) (tx : Transmit) : Transmit :=
  match tx.phase with
  | .idle => tx
  | .start => if tx.cnt > 1 then tx.countDown else tx.driveData k b 0
  | .data =>
    if tx.cnt > 1 then tx.countDown
    else
      match nextSymbol tx.bit with
      | some i => tx.driveData k b i
      | none => tx.driveStop k
  | .stop => if tx.cnt > 1 then tx.countDown else tx
  | .cool => tx

/-- ENCODE of `b` (41_encode.md R110). -/
def execEncode (b : Byte) (s : State) : Host.Outcome State Fault Refusal :=
  .next (s.setTx (encodeTick s.tickScale b s.tx))

/-- One tick of SEQ of `buf`: the step that ends a stop symbol, the cooldown, and the step that ends it
(42_sequencer.md R127 to R129, R133). -/
def seqTick (k : Nat) (buf : List Byte) (tx : Transmit) : Transmit × List Event :=
  match tx.phase with
  | .idle => (tx, [])
  | .start => (tx, [])
  | .data => (tx, [])
  | .stop => if tx.cnt > 1 then (tx, []) else (tx.startCooldown k, [.txSent tx.cur])
  | .cool =>
    if tx.cnt > 1 then (tx.countDown, [])
    else
      match buf[tx.idx + 1]? with
      | some b => (tx.startFrame k (tx.idx + 1) b, [])
      | none => (tx.finish, [.wrDone buf.length])

/-- SEQ of `buf` (42_sequencer.md R126). -/
def execSeq (buf : List Byte) (s : State) : Host.Outcome State Fault Refusal :=
  let r := seqTick s.tickScale buf s.tx
  .next ((s.setTx r.1).emitAll r.2)

end Sys2Proof.Machine
end

