-- ==== Sys2Proof/Machine/Dispatch.lean ====
section
/-! DEFINITION. Each operation's meaning. -/

namespace Sys2Proof.Machine

def exec (i : Instr) (s : State) : Host.Outcome State Fault Refusal :=
  match i with
  | .decode d => Sys2Proof.Machine.execDecode d s
  | .publish => Sys2Proof.Machine.execPublish s
  | .encode b => Sys2Proof.Machine.execEncode b s
  | .seq buf => Sys2Proof.Machine.execSeq buf s
  | .read => Sys2Proof.Machine.execRead s
  | .write buf => Sys2Proof.Machine.execWrite buf s
  | .reset => Sys2Proof.Machine.execReset s

end Sys2Proof.Machine
end

