-- ==== Sys2Proof/Machine/Tick.lean ====
section
/-! DEFINITION. One tick of the block (44_block_step.md R155). -/

namespace Sys2Proof.Machine

/-- The operations of a list, one after the other. -/
def runAll : List Instr → State → Host.Outcome State Fault Refusal
  | [], s => .next s
  | i :: is, s =>
    match exec i s with
    | .next t => runAll is t
    | .fault f => .fault f
    | .refused r => .refused r

/-- What a tick does besides its operations: outside reset, DET_PREV takes the level of DET (40_decode.md R105) and the
tick number advances (00_scope.md R9); always, the input is used up. `s` is the state the tick began in, `t` the one its
operations left. -/
def endTick (inp : Input) (s t : State) : State :=
  match inp.rst with
  | true => { t with inputs := s.inputs.tail, clock := s.clock + 1 }
  | false =>
    { t with rx := { t.rx with detPrev := detOf inp s }, inputs := s.inputs.tail, clock := s.clock + 1, tick := s.tick + 1 }

/-- One tick under the input `inp`. -/
def tickWith (inp : Input) (s : State) : Host.Outcome State Fault Refusal :=
  match runAll (selected inp s) s with
  | .next t => .next (endTick inp s t)
  | .fault f => .fault f
  | .refused r => .refused r

end Sys2Proof.Machine
end

