-- ==== Sys2Proof/Machine/Step.lean ====
section
/-! DEFINITION. The step of the machine: one tick. -/

namespace Sys2Proof.Machine

/-- One tick under the environment's choice for it (44_block_step.md R155, R158). -/
def step (s : State) : Host.Outcome State Fault Refusal := tickWith (currentInput s) s

/-- The state in which the next step runs the operation read from a row's bits. Log entry 9. -/
def State.withFetchWord (s : State) (nbits w : Nat) : State := presentTableWord s nbits w

end Sys2Proof.Machine
end

