-- ==== Sys2Proof/Machine/Block.lean ====
section
/-! DEFINITION. The block's step as the spec's pseudocode writes it, engine by engine (40_decode.md R98, 41_encode.md R115
with 42_sequencer.md R133, 44_block_step.md R155). The machine runs the operations one by one (Tick.lean); a statement says
that the two agree. Every right-hand side is the value at the current tick (00_scope.md R10). -/

namespace Sys2Proof.Machine

/-- RxStep, 40_decode.md R98. -/
def rxStep (k : Nat) (det : Level) (r : Receive) : Receive × List Event :=
  let r' : Receive := { r with detPrev := det }
  match r.phase with
  | .idle =>
    if r.armed = true ∧ r.detPrev = .high ∧ det = .low then
      ({ r' with armed := false, acc := 0x00#8, bit := 0, phase := .settle, cnt := 9 * k }, [.rxStart])
    else (r', [])
  | .settle =>
    if r.cnt > 1 then ({ r' with cnt := r.cnt - 1 }, [])
    else ({ r' with acc := r.acc ||| (zext8 det <<< 0), bit := 0, phase := .wait, cnt := 6 * k }, [])
  | .wait =>
    if r.cnt > 1 then ({ r' with cnt := r.cnt - 1 }, [])
    else if h : r.bit.val < 7 then
      ({ r' with acc := r.acc ||| (zext8 det <<< (r.bit.val + 1)), bit := ⟨r.bit.val + 1, by omega⟩, cnt := 6 * k }, [])
    else ({ r' with reg := r.acc, armed := true, phase := .idle }, [.rxDone r.acc])

/-- TxStep, 42_sequencer.md R133 with the phases of 41_encode.md R115. -/
def txStep (k : Nat) (wr : Option (List Byte)) (t : Transmit) : Transmit × List Event :=
  match t.phase with
  | .idle =>
    match wr with
    | none => (t, [])
    | some [] => (t, [.wrDone 0])
    | some (b :: bs) =>
      ({ t with buf := b :: bs, idx := 0, cur := b, emit := .low, phase := .start, cnt := 6 * k }, [])
  | .start =>
    if t.cnt > 1 then ({ t with cnt := t.cnt - 1 }, [])
    else ({ t with emit := levelOfBit (t.cur.getLsbD 0), phase := .data, bit := 0, cnt := 6 * k }, [])
  | .data =>
    if t.cnt > 1 then ({ t with cnt := t.cnt - 1 }, [])
    else if h : t.bit.val < 7 then
      ({ t with emit := levelOfBit (t.cur.getLsbD (t.bit.val + 1)), bit := ⟨t.bit.val + 1, by omega⟩, cnt := 6 * k }, [])
    else ({ t with emit := .high, phase := .stop, cnt := 6 * k }, [])
  | .stop =>
    if t.cnt > 1 then ({ t with cnt := t.cnt - 1 }, [])
    else ({ t with phase := .cool, cnt := 200 * k }, [.txSent t.cur])
  | .cool =>
    if t.cnt > 1 then ({ t with cnt := t.cnt - 1 }, [])
    else if h : t.idx + 1 < t.buf.length then
      ({ t with idx := t.idx + 1, cur := t.buf[t.idx + 1], emit := .low, phase := .start, cnt := 6 * k }, [])
    else ({ t with phase := .idle }, [.wrDone t.buf.length])

/-- The block's next state and the events of the tick, transmit before receive (44_block_step.md R155, R157), when DET is
`det` and a reset would draw `r` for RXREG_RESET. -/
def blockStep (k : Nat) (r : Byte) (det : Level) (wr : Option (List Byte)) (rst : Bool) (tx : Transmit) (rx : Receive) :
    Transmit × Receive × List Event :=
  match rst with
  | true => (Transmit.reset, Receive.reset r, [])
  | false => ((txStep k wr tx).1, (rxStep k det rx).1, (txStep k wr tx).2 ++ (rxStep k det rx).2)

end Sys2Proof.Machine
end

