-- ==== Sys2Proof/Machine/Link.lean ====
section
/-! DEFINITION. A matched link of two blocks, each detector seeing the other's emitter with no delay, no inversion and no
noise (30_encoding.md R83, 44_block_step.md R159). -/

namespace Sys2Proof.Machine

/-- Two blocks of one link. -/
structure Link where
  a : State
  b : State
  deriving DecidableEq, Repr

/-- The input of a block whose detector sees a line at `l`; the other choices are still the environment's. -/
def inputSeeing (l : Level) (s : State) : Input := { currentInput s with det := .level l }

/-- One tick of both blocks. -/
def linkStep (l : Link) : Host.Outcome Link Fault Refusal :=
  match tickWith (inputSeeing l.b.tx.emit l.a) l.a with
  | .next a =>
    match tickWith (inputSeeing l.a.tx.emit l.b) l.b with
    | .next b => .next ⟨a, b⟩
    | .fault f => .fault f
    | .refused r => .refused r
  | .fault f => .fault f
  | .refused r => .refused r

/-- `n` ticks of a link. -/
def linkRun : Nat → Link → Host.Outcome Link Fault Refusal
  | 0, l => .next l
  | n + 1, l =>
    match linkStep l with
    | .next l' => linkRun n l'
    | .fault f => .fault f
    | .refused r => .refused r

end Sys2Proof.Machine
end

