-- ==== Sys2Proof/Safety.lean ====
section
/-! DEFINITION. The terms statements are made in: runs, the inputs a run will meet, the events of a log, the premises about
the environment (44_block_step.md R158), and the invariant of the machine. There is no unsafe run: no step can fault. -/

namespace Sys2Proof.Machine

/-- `n` steps of the machine. -/
def run (n : Nat) (s : State) : Host.Outcome State Fault Refusal := Host.Core.run Sys2Proof.core n s

/-- The input the `j`-th step from `s` will meet (the present one is number 0): the listed ones, then free ones. -/
def inputAfter (s : State) (j : Nat) : Input :=
  match s.inputs[j]? with
  | some inp => inp
  | none => Config.freeInput (s.clock + j)

/-- RST stays 0 for the next `n` steps. -/
def NoResetFor (n : Nat) (s : State) : Prop := ∀ j < n, (inputAfter s j).rst = false

/-- DET follows the waveform `l` for the next `n` steps, whatever drives it. -/
def LineShows (l : Nat → Level) (n : Nat) (s : State) : Prop :=
  ∀ j < n, ∀ u, run j s = .next u → detOf (currentInput u) u = l j

/-- The detector sees the block's own emitter for the next `n` steps (44_block_step.md R159). -/
def LoopbackFor (n : Nat) (s : State) : Prop := ∀ j < n, (inputAfter s j).det = .loopback

/-- The receiver is ready for a start edge: idle, armed, and the line was HIGH (40_decode.md R90). -/
abbrev ReadyToReceive (s : State) : Prop := s.rx.phase = .idle ∧ s.rx.armed = true ∧ s.rx.detPrev = .high

/-- A quiescent tick (44_block_step.md R161). -/
abbrev Quiescent (s : State) : Prop := s.tx.phase = .idle ∧ s.rx.phase = .idle

/-- The events of a log with their stamps, newest first. -/
def eventsOf (log : List (Nat × Observation)) : List (Nat × Event) :=
  log.filterMap fun entry =>
    match entry.2 with
    | .event e => some (entry.1, e)
    | .readData _ => none

/-- Whether an event is the transmit engine's. -/
def Event.isTransmit : Event → Bool
  | .rxStart => false
  | .rxDone _ => false
  | .txSent _ => true
  | .wrDone _ => true

/-- The transmit engine's events of a log, newest first. -/
def transmitEvents (log : List (Nat × Observation)) : List (Nat × Event) :=
  (eventsOf log).filter fun entry => entry.2.isTransmit

/-- The receive engine's events of a log, newest first. -/
def receiveEvents (log : List (Nat × Observation)) : List (Nat × Event) :=
  (eventsOf log).filter fun entry => !entry.2.isTransmit

/-- The bytes READs returned, with their stamps, newest first. -/
def readsOf (log : List (Nat × Observation)) : List (Nat × Byte) :=
  log.filterMap fun entry =>
    match entry.2 with
    | .event _ => none
    | .readData v => some (entry.1, v)

/-- `b_0 + 2 b_1 + … + 2^7 b_7`, the byte of eight sampled levels (30_encoding.md R77), for the levels `l 0` to `l 7`. -/
def byteOfLevels (l : Nat → Level) : Byte :=
  BitVec.ofBool (bitOfLevel (l 7)) ++ BitVec.ofBool (bitOfLevel (l 6)) ++ BitVec.ofBool (bitOfLevel (l 5))
    ++ BitVec.ofBool (bitOfLevel (l 4)) ++ BitVec.ofBool (bitOfLevel (l 3)) ++ BitVec.ofBool (bitOfLevel (l 2))
    ++ BitVec.ofBool (bitOfLevel (l 1)) ++ BitVec.ofBool (bitOfLevel (l 0))

/-- What holds of the receive elements at every tick: 10_state.md R45, the ranges of R23 and R24, and that the accumulator
holds only the samples taken so far. -/
abbrev ReceiveInv (k : Nat) (rx : Receive) : Prop :=
  (rx.armed = true ↔ rx.phase = .idle) ∧ rx.cnt ≤ nSettle k
    ∧ (rx.phase = .settle → 1 ≤ rx.cnt ∧ rx.acc = 0x00#8 ∧ rx.bit = 0)
    ∧ (rx.phase = .wait → 1 ≤ rx.cnt ∧ rx.cnt ≤ nUnit k ∧ rx.acc >>> (rx.bit.val + 1) = 0x00#8)

/-- What holds of the transmit elements at every tick: 10_state.md R46, the ranges of R31 and R33, and that TX_CUR is the
byte of the buffer that is being sent (R32). -/
abbrev TransmitInv (k : Nat) (tx : Transmit) : Prop :=
  tx.cnt ≤ nCooldown k
    ∧ (tx.phase = .idle ∨ tx.phase = .stop ∨ tx.phase = .cool → tx.emit = .high)
    ∧ (tx.phase = .start → tx.emit = .low)
    ∧ (tx.phase = .data → tx.emit = dataSymbol tx.cur tx.bit)
    ∧ (tx.phase ≠ .idle → 1 ≤ tx.cnt ∧ tx.buf[tx.idx]? = some tx.cur)
    ∧ (tx.phase = .start ∨ tx.phase = .data ∨ tx.phase = .stop → tx.cnt ≤ nUnit k)

/-- The invariant of the machine; K is positive (00_scope.md R6). -/
abbrev Inv (s : State) : Prop := 0 < s.tickScale ∧ ReceiveInv s.tickScale s.rx ∧ TransmitInv s.tickScale s.tx

end Sys2Proof.Machine
end

