-- ==== Sys2Proof/Certificates/Slice0/Obligations.lean ====
section
/-! DEFINITION. The statements for the provers. The block has no memory (10_state.md R42), so no frame speaks of one; a
frame here speaks of every field of the state. -/

open Sys2Proof Sys2Proof.Machine

/-! ## Reset -/

/-- 10_state.md R44: every element of the reset state. RXREG holds the free value RXREG_RESET, of which nothing is known,
and whatever inputs follow, every READ returns that same byte until the first PUBLISH or the next reset. -/
def Obligations.ResetStateHoldsTheSpecsValues : Prop :=
  State.reset.rx
      = { reg := Config.rxregReset 0, acc := 0x00#8, bit := 0, cnt := 0, phase := .idle, armed := true, detPrev := .low }
    ∧ State.reset.tx = { emit := .high, phase := .idle, bit := 0, cnt := 0, cur := 0x00#8, buf := [], idx := 0 }
    ∧ ∀ (inputs : List Input) (n : Nat) (t : State), run n { State.reset with inputs := inputs } = .next t →
      (∀ j < n, ∀ u, run j { State.reset with inputs := inputs } = .next u →
        (currentInput u).rst = false ∧ Instr.publish ∉ selected (currentInput u) u) →
      exec .read t = .next { t with log := (t.clock, .readData (Config.rxregReset 0)) :: t.log }

/-- 70_reset_and_hazards.md R191: RESET answers the reset state from every state, RXREG taking some byte, and leaves K, the
inputs and what was observed alone. -/
def Obligations.ResetPutsEveryElementAtItsResetValue : Prop :=
  ∀ s : State, ∃ r : Byte, exec .reset s = .next { s with
    rx := { reg := r, acc := 0x00#8, bit := 0, cnt := 0, phase := .idle, armed := true, detPrev := .low }
    tx := { emit := .high, phase := .idle, bit := 0, cnt := 0, cur := 0x00#8, buf := [], idx := 0 }
    tick := 0 }

/-- 70_reset_and_hazards.md R190: a tick with RST = 1 leads to the reset state whatever the state and the other inputs are,
emits no event, and the state is that of tick 0. -/
def Obligations.ResetTickWinsOverEverything : Prop :=
  ∀ s : State, (currentInput s).rst = true → ∃ t r, step s = .next t
    ∧ t.rx = { reg := r, acc := 0x00#8, bit := 0, cnt := 0, phase := .idle, armed := true, detPrev := .low }
    ∧ t.tx = { emit := .high, phase := .idle, bit := 0, cnt := 0, cur := 0x00#8, buf := [], idx := 0 }
    ∧ t.tick = 0 ∧ eventsOf t.log = eventsOf s.log

/-- The model's choice of log entry 4: while RST is held on after a reset (tick 0), RXREG keeps the byte drawn when the
reset began, and a reset from any later tick draws the byte of that reset. -/
def Obligations.HeldResetKeepsTheDrawnByte : Prop :=
  ∀ s : State, (currentInput s).rst = true → ∃ t, step s = .next t
    ∧ (s.tick = 0 → t.rx.reg = s.rx.reg) ∧ (s.tick ≠ 0 → t.rx.reg = Config.rxregReset (s.clock + 1))

/-! ## DECODE and PUBLISH -/

/-- 40_decode.md R91: the entry of DECODE masks the interrupt, clears the accumulator, starts the settle wait and emits
RX_START; nothing else changes. -/
def Obligations.DecodeEntryDisarmsAndStartsTheSettleWait : Prop :=
  ∀ (d : Byte) (s : State), s.rx.phase = .idle → s.rx.armed = true → s.rx.detPrev = .high →
    exec (.decode d) s = .next { s with
      rx := { s.rx with armed := false, acc := 0x00#8, bit := 0, phase := .settle, cnt := nSettle s.tickScale }
      log := (s.clock, .event .rxStart) :: s.log }

/-- 40_decode.md R90: outside reset, a decode is entered at a tick exactly where the engine is idle, the interrupt enabled,
DET was HIGH and DET is LOW; on a state that meets the invariant the last three alone decide. -/
def Obligations.DecodeStartsExactlyAtAFallingEdge : Prop :=
  ∀ s : State, (currentInput s).rst = false → ∃ t, step s = .next t
    ∧ ((s.rx.phase = .idle ∧ t.rx.phase = .settle)
      ↔ (s.rx.phase = .idle ∧ s.rx.armed = true ∧ s.rx.detPrev = .high ∧ detOf (currentInput s) s = .low))
    ∧ (Inv s → ((s.rx.phase = .idle ∧ t.rx.phase = .settle)
      ↔ (s.rx.armed = true ∧ s.rx.detPrev = .high ∧ detOf (currentInput s) s = .low)))

/-- The arms of 40_decode.md R98 between entry and PUBLISH: a wait counts down, and at its end the next sample is ORed into
the accumulator at its place and the unit interval after it begins; nothing else changes. -/
def Obligations.DecodeCountsDownOrTakesTheNextSample : Prop :=
  ∀ (d : Byte) (s : State),
    (s.rx.phase = .settle ∨ s.rx.phase = .wait → 1 < s.rx.cnt →
      exec (.decode d) s = .next { s with rx := { s.rx with cnt := s.rx.cnt - 1 } })
    ∧ (s.rx.phase = .settle → s.rx.cnt ≤ 1 →
      exec (.decode d) s = .next { s with rx := { s.rx with
        acc := s.rx.acc ||| (zext8 (dataSymbol d 0) <<< 0), bit := 0, phase := .wait, cnt := nUnit s.tickScale } })
    ∧ (∀ i j : Fin 8, i.val + 1 = j.val → s.rx.phase = .wait → s.rx.bit = i → s.rx.cnt ≤ 1 →
      exec (.decode d) s = .next { s with rx := { s.rx with
        acc := s.rx.acc ||| (zext8 (dataSymbol d j) <<< j.val), bit := j, cnt := nUnit s.tickScale } })

/-- 60_exceptions.md R175 and 40_decode.md R97: PUBLISH writes all of RXREG, enables the interrupt, returns to R_IDLE and
emits RX_DONE with the byte; nothing else changes and nothing is restored. -/
def Obligations.PublishWritesTheByteRearmsAndLogs : Prop :=
  ∀ s : State, s.rx.phase = .wait → s.rx.bit = 7 → s.rx.cnt = 1 →
    exec .publish s = .next { s with
      rx := { s.rx with reg := s.rx.acc, armed := true, phase := .idle }
      log := (s.clock, .event (.rxDone s.rx.acc)) :: s.log }

/-- 40_decode.md R92: after the edge the engine waits, RX_CNT counting down by one a tick to 1 at tick t0 + N_SETTLE,
whatever DET does. -/
def Obligations.SettleWaitLastsNSettleTicks : Prop :=
  ∀ s : State, 0 < s.tickScale → ReadyToReceive s → detOf (currentInput s) s = .low → NoResetFor (nSettle s.tickScale) s →
    ∀ n, 1 ≤ n → n ≤ nSettle s.tickScale → ∃ t, run n s = .next t
      ∧ t.rx.phase = .settle ∧ t.rx.cnt = nSettle s.tickScale + 1 - n

/-- 40_decode.md R93: sample i is taken by the step at tick t0 + N_SETTLE + i N_UNIT and is the level of DET at that tick. -/
def Obligations.SamplesAreTakenAtTheirTicks : Prop :=
  ∀ (s : State) (l : Nat → Level), 0 < s.tickScale → ReadyToReceive s → l 0 = .low →
    LineShows l (decodeTicks s.tickScale) s → NoResetFor (decodeTicks s.tickScale) s →
    ∀ i : Fin 8, ∃ u t, run (nSettle s.tickScale + i.val * nUnit s.tickScale) s = .next u ∧ step u = .next t
      ∧ t.rx.acc = u.rx.acc ||| (zext8 (l (nSettle s.tickScale + i.val * nUnit s.tickScale)) <<< i.val)
      ∧ t.rx.bit = i ∧ t.rx.cnt = nUnit s.tickScale ∧ t.rx.phase = .wait

/-- The closed form of the spec's derived rule in 40_decode.md section 3: from the start edge on, RXREG keeps the old byte
through tick tp, the engine is busy and masked, and after the step at tp RXREG holds exactly the eight sampled levels. -/
def Obligations.DecodePublishesTheEightSampledLevels : Prop :=
  ∀ (s : State) (l : Nat → Level), 0 < s.tickScale → ReadyToReceive s → l 0 = .low →
    LineShows l (decodeTicks s.tickScale) s → NoResetFor (decodeTicks s.tickScale + 1) s →
    (∀ n, n ≤ decodeTicks s.tickScale → ∃ t, run n s = .next t ∧ t.rx.reg = s.rx.reg
      ∧ (1 ≤ n → t.rx.armed = false ∧ rxBusy t.rx = true))
    ∧ ∃ t, run (decodeTicks s.tickScale + 1) s = .next t
      ∧ t.rx.reg = byteOfLevels (fun i => l (nSettle s.tickScale + i * nUnit s.tickScale))
      ∧ t.rx.armed = true ∧ rxBusy t.rx = false
      ∧ receiveEvents t.log = (s.clock + decodeTicks s.tickScale, .rxDone t.rx.reg) :: (s.clock, .rxStart) :: receiveEvents s.log

/-- 40_decode.md R101: during a decode the interrupt is masked, no level of DET is an edge and no decode is started, and
at the re-arm the only level remembered is that of the tick before. -/
def Obligations.EdgesDuringADecodeAreLost : Prop :=
  ∀ s : State, 0 < s.tickScale → ReadyToReceive s → detOf (currentInput s) s = .low →
    NoResetFor (decodeTicks s.tickScale + 1) s →
    (∀ n, 1 ≤ n → n ≤ decodeTicks s.tickScale → ∃ t, run n s = .next t
      ∧ t.rx.armed = false ∧ (∀ det, edge t.rx det = false)
      ∧ receiveEvents t.log = (s.clock, .rxStart) :: receiveEvents s.log)
    ∧ ∃ u t, run (decodeTicks s.tickScale) s = .next u ∧ step u = .next t
      ∧ t.rx.phase = .idle ∧ t.rx.armed = true ∧ t.rx.detPrev = detOf (currentInput u) u
      ∧ receiveEvents t.log = (s.clock + decodeTicks s.tickScale, .rxDone u.rx.acc) :: (s.clock, .rxStart) :: receiveEvents s.log

/-- The spec's corner case (c) of 40_decode.md section 5: while the line stays dark, with no fresh fall, no decode starts. -/
def Obligations.NoDecodeWhileTheLineStaysDark : Prop :=
  ∀ (n : Nat) (s : State), s.rx.phase = .idle → s.rx.detPrev = .low → LineShows (fun _ => .low) n s → NoResetFor n s →
    ∃ t, run n s = .next t ∧ t.rx = s.rx ∧ receiveEvents t.log = receiveEvents s.log

/-- 10_state.md R27: outside reset DET_PREV takes the level of DET at every tick, in every phase, armed or not. -/
def Obligations.DetPrevTracksTheLineAtEveryTick : Prop :=
  ∀ s : State, (currentInput s).rst = false → ∃ t, step s = .next t ∧ t.rx.detPrev = detOf (currentInput s) s

/-- The single writer of 10_state.md section 2: a step changes RXREG only in a reset tick or by a PUBLISH, and a PUBLISH
writes the whole accumulator. -/
def Obligations.OnlyPublishOrResetChangesTheReceiveRegister : Prop :=
  ∀ s t : State, step s = .next t → t.rx.reg ≠ s.rx.reg →
    (currentInput s).rst = true ∨ (Instr.publish ∈ selected (currentInput s) s ∧ t.rx.reg = s.rx.acc)

/-- 60_exceptions.md R170: a masked interrupt sees no edge; a step changes RX_ARMED only by a decode entry, which clears it,
by a PUBLISH, which sets it, or by a reset, which sets it. -/
def Obligations.OnlyEntryPublishAndResetChangeTheInterruptEnable : Prop :=
  ∀ s t : State, step s = .next t →
    (s.rx.armed = false → ∀ det, edge s.rx det = false)
    ∧ (t.rx.armed ≠ s.rx.armed →
      (t.rx.armed = false ∧ s.rx.phase = .idle ∧ edge s.rx (detOf (currentInput s) s) = true ∧ t.rx.phase = .settle)
      ∨ (t.rx.armed = true ∧ ((currentInput s).rst = true ∨ Instr.publish ∈ selected (currentInput s) s)))

/-- The spec's corner case (d) of 40_decode.md section 5: a fall of DET one tick after PUBLISH, from HIGH, starts a decode. -/
def Obligations.EdgeOneTickAfterPublishStartsADecode : Prop :=
  ∀ s u : State, publishDue s.rx = true → NoResetFor 2 s → step s = .next u →
    detOf (currentInput s) s = .high → detOf (currentInput u) u = .low →
    ∃ t, step u = .next t ∧ t.rx.phase = .settle ∧ t.rx.cnt = nSettle s.tickScale
      ∧ receiveEvents t.log = (s.clock + 1, .rxStart) :: (s.clock, .rxDone s.rx.acc) :: receiveEvents s.log

/-- Frame of DECODE and PUBLISH: the transmit elements, DET_PREV, K, the inputs, the time and the earlier log are left
alone; DECODE leaves RXREG alone unless PUBLISH is due, and PUBLISH leaves RX_ACC, RX_BIT and RX_CNT alone. -/
def Obligations.FrameOfTheReceiveOperations : Prop :=
  (∀ (d : Byte) (s : State), ∃ t, exec (.decode d) s = .next t
    ∧ t.tickScale = s.tickScale ∧ t.tx = s.tx ∧ t.inputs = s.inputs ∧ t.clock = s.clock ∧ t.tick = s.tick
    ∧ t.rx.detPrev = s.rx.detPrev ∧ (publishDue s.rx = false → t.rx.reg = s.rx.reg)
    ∧ readsOf t.log = readsOf s.log ∧ transmitEvents t.log = transmitEvents s.log)
  ∧ (∀ s : State, ∃ t, exec .publish s = .next t
    ∧ t.tickScale = s.tickScale ∧ t.tx = s.tx ∧ t.inputs = s.inputs ∧ t.clock = s.clock ∧ t.tick = s.tick
    ∧ t.rx.detPrev = s.rx.detPrev ∧ t.rx.acc = s.rx.acc ∧ t.rx.bit = s.rx.bit ∧ t.rx.cnt = s.rx.cnt
    ∧ readsOf t.log = readsOf s.log ∧ transmitEvents t.log = transmitEvents s.log)

/-! ## ENCODE and SEQ -/

/-- 41_encode.md R115: the transitions of the three phases of ENCODE; nothing else changes. -/
def Obligations.EncodeHoldsOrDrivesTheNextSymbol : Prop :=
  ∀ (b : Byte) (s : State),
    (s.tx.phase = .start ∨ s.tx.phase = .data ∨ s.tx.phase = .stop → 1 < s.tx.cnt →
      exec (.encode b) s = .next { s with tx := { s.tx with cnt := s.tx.cnt - 1 } })
    ∧ (s.tx.phase = .start → s.tx.cnt ≤ 1 →
      exec (.encode b) s = .next { s with tx := { s.tx with
        emit := levelOfBit (b.getLsbD 0), phase := .data, bit := 0, cnt := nUnit s.tickScale } })
    ∧ (∀ i j : Fin 8, i.val + 1 = j.val → s.tx.phase = .data → s.tx.bit = i → s.tx.cnt ≤ 1 →
      exec (.encode b) s = .next { s with tx := { s.tx with
        emit := levelOfBit (b.getLsbD j.val), bit := j, cnt := nUnit s.tickScale } })
    ∧ (s.tx.phase = .data → s.tx.bit = 7 → s.tx.cnt ≤ 1 →
      exec (.encode b) s = .next { s with tx := { s.tx with emit := .high, phase := .stop, cnt := nUnit s.tickScale } })

/-- 42_sequencer.md R127: the step that ends the stop symbol emits TX_SENT(TX_CUR), then the cooldown begins with EMIT as it
is; nothing else changes. -/
def Obligations.SeqLogsTheByteSentAndStartsTheCooldown : Prop :=
  ∀ (buf : List Byte) (s : State), s.tx.phase = .stop → s.tx.cnt ≤ 1 →
    exec (.seq buf) s = .next { s with
      tx := { s.tx with phase := .cool, cnt := nCooldown s.tickScale }
      log := (s.clock, .event (.txSent s.tx.cur)) :: s.log }

/-- 42_sequencer.md R129 for the last byte, and its neighbours in R133: the cooldown counts down; where a byte is left its
start symbol begins; after the last, WR_DONE(N) is emitted and the engine is idle and ready. Nothing else changes. -/
def Obligations.SeqCoolsDownThenSendsTheNextByteOrCompletes : Prop :=
  ∀ (buf : List Byte) (s : State), s.tx.phase = .cool →
    (1 < s.tx.cnt → exec (.seq buf) s = .next { s with tx := { s.tx with cnt := s.tx.cnt - 1 } })
    ∧ (∀ b, s.tx.cnt ≤ 1 → buf[s.tx.idx + 1]? = some b →
      exec (.seq buf) s = .next { s with tx := { s.tx with
        idx := s.tx.idx + 1, cur := b, emit := .low, phase := .start, cnt := nUnit s.tickScale } })
    ∧ (s.tx.cnt ≤ 1 → buf.length ≤ s.tx.idx + 1 →
      exec (.seq buf) s = .next { s with
          tx := { s.tx with phase := .idle }, log := (s.clock, .event (.wrDone buf.length)) :: s.log }
        ∧ wrReady { s.tx with phase := .idle } = true)

/-- 41_encode.md R111, R112, R113: whenever a frame is begun the line was HIGH; its ten symbols follow, LOW, then the byte's
bits in ascending order, then HIGH, each held N_UNIT ticks in its phase; and EMIT is left HIGH. -/
def Obligations.EncodeDrivesTheTenSymbolsOfTheFrame : Prop :=
  ∀ s u : State, Inv s → s.tx.phase ≠ .start → step s = .next u → u.tx.phase = .start →
    NoResetFor (10 * nUnit u.tickScale) u →
    s.tx.emit = .high
    ∧ (∀ m, m < nUnit u.tickScale → ∃ t, run m u = .next t ∧ t.tx.phase = .start ∧ t.tx.emit = .low)
    ∧ (∀ (i : Fin 8) (m : Nat), m < nUnit u.tickScale → ∃ t, run ((1 + i.val) * nUnit u.tickScale + m) u = .next t
      ∧ t.tx.phase = .data ∧ t.tx.bit = i ∧ t.tx.emit = levelOfBit (u.tx.cur.getLsbD i.val))
    ∧ (∀ m, m < nUnit u.tickScale → ∃ t, run (9 * nUnit u.tickScale + m) u = .next t
      ∧ t.tx.phase = .stop ∧ t.tx.emit = .high)
    ∧ ∃ t, run (10 * nUnit u.tickScale) u = .next t ∧ t.tx.phase = .cool ∧ t.tx.emit = .high

/-- Sequencer completeness, with the ticks the spec derives in 42_sequencer.md section 1: a write of N bytes sends exactly
its N frames in order, each followed by the cooldown, emits TX_SENT for each and WR_DONE(N) at the end, and the engine is
busy for exactly N periods. -/
def Obligations.WriteSendsEveryByteInOrderThenCompletes : Prop :=
  ∀ (s : State) (buf : List Byte), Inv s → s.tx.phase = .idle → (currentInput s).wr = some buf → buf ≠ [] →
    NoResetFor (buf.length * bytePeriod s.tickScale + 1) s →
    (∀ (j : Nat) (b : Byte) (m : Nat), buf[j]? = some b → m < bytePeriod s.tickScale →
      ∃ t, run (1 + j * bytePeriod s.tickScale + m) s = .next t ∧ wrReady t.tx = false
        ∧ t.tx.buf = buf ∧ t.tx.idx = j ∧ t.tx.cur = b ∧ t.tx.emit = frameSymbol b (m / nUnit s.tickScale))
    ∧ ∃ t, run (buf.length * bytePeriod s.tickScale + 1) s = .next t ∧ wrReady t.tx = true ∧ t.tx.emit = .high
      ∧ transmitEvents t.log
        = (s.clock + buf.length * bytePeriod s.tickScale, .wrDone buf.length)
          :: (buf.zipIdx.map fun p =>
                (s.clock + p.2 * bytePeriod s.tickScale + 10 * nUnit s.tickScale, Event.txSent p.1)).reverse
          ++ transmitEvents s.log

/-! ## READ and WRITE -/

/-- 43_endpoint.md R140: READ returns RXREG, writes no state and emits no event; nothing else changes. -/
def Obligations.ReadReturnsTheReceiveRegister : Prop :=
  ∀ s : State, exec .read s = .next { s with log := (s.clock, .readData s.rx.reg) :: s.log }

/-- READs in the tick of a PUBLISH (20_memory.md section 3): each of them returns the byte from before, and the new byte
stands in RXREG from the next tick. -/
def Obligations.ReadsInThePublishTickReturnTheOldByte : Prop :=
  ∀ s : State, (currentInput s).rst = false → publishDue s.rx = true → ∃ t, step s = .next t
    ∧ readsOf t.log = List.replicate (currentInput s).readers (s.clock, s.rx.reg) ++ readsOf s.log
    ∧ t.rx.reg = s.rx.acc

/-- Idempotent read (the spec's derived rule in 43_endpoint.md section 2): without a PUBLISH and without a reset RXREG, and
so what a READ returns, stays the same. -/
def Obligations.RepeatedReadsReturnTheSameByte : Prop :=
  ∀ (n : Nat) (s t : State), run n s = .next t →
    (∀ j < n, ∀ u, run j s = .next u →
      (currentInput u).rst = false ∧ Instr.publish ∉ selected (currentInput u) u) →
    exec .read t = .next { t with log := (t.clock, .readData s.rx.reg) :: t.log }

/-- The first arm of the spec's TxStep (42_sequencer.md section 2): an accepted WRITE of at least one byte copies the
buffer and begins the start symbol of its first byte; nothing else changes. -/
def Obligations.AcceptedWriteCopiesTheBufferAndStartsItsFirstFrame : Prop :=
  ∀ (b : Byte) (bs : List Byte) (s : State), s.tx.phase = .idle →
    exec (.write (b :: bs)) s = .next { s with tx := { s.tx with
      buf := b :: bs, idx := 0, cur := b, emit := .low, phase := .start, cnt := nUnit s.tickScale } }

/-- 42_sequencer.md R132: a WRITE of no bytes emits WR_DONE(0) in the same step and changes no state of the block. -/
def Obligations.EmptyWriteCompletesInTheSameStep : Prop :=
  ∀ s : State, s.tx.phase = .idle →
    exec (.write []) s = .next { s with log := (s.clock, .event (.wrDone 0)) :: s.log }

/-- 42_sequencer.md R134: a WRITE is accepted exactly where the transmit engine is idle; offered at any other tick it has
no effect: the tick is as if nothing had been offered. -/
def Obligations.WriteIsAcceptedExactlyWhenTheTransmitterIsIdle : Prop :=
  ∀ (s : State) (inp : Input) (buf : List Byte), inp.rst = false → inp.wr = some buf →
    (Instr.write buf ∈ selected inp s ↔ s.tx.phase = .idle)
    ∧ (s.tx.phase = .idle → buf ≠ [] → ∃ t, tickWith inp s = .next t ∧ t.tx.buf = buf ∧ t.tx.phase = .start)
    ∧ (s.tx.phase ≠ .idle → tickWith inp s = tickWith { inp with wr := none } s ∧ exec (.write buf) s = .next s)

/-- Frame of ENCODE, SEQ and WRITE: the receive elements, K, the inputs, the time and the earlier log are left alone; ENCODE
leaves TX_CUR, TX_BUF, TX_IDX and the log alone, SEQ leaves TX_BIT and TX_BUF alone, WRITE leaves TX_BIT alone. -/
def Obligations.FrameOfTheTransmitOperations : Prop :=
  (∀ (b : Byte) (s : State), ∃ t, exec (.encode b) s = .next t
    ∧ t.tickScale = s.tickScale ∧ t.rx = s.rx ∧ t.inputs = s.inputs ∧ t.clock = s.clock ∧ t.tick = s.tick
    ∧ t.log = s.log ∧ t.tx.cur = s.tx.cur ∧ t.tx.buf = s.tx.buf ∧ t.tx.idx = s.tx.idx)
  ∧ (∀ (buf : List Byte) (s : State), ∃ t, exec (.seq buf) s = .next t
    ∧ t.tickScale = s.tickScale ∧ t.rx = s.rx ∧ t.inputs = s.inputs ∧ t.clock = s.clock ∧ t.tick = s.tick
    ∧ t.tx.bit = s.tx.bit ∧ t.tx.buf = s.tx.buf
    ∧ readsOf t.log = readsOf s.log ∧ receiveEvents t.log = receiveEvents s.log)
  ∧ (∀ (buf : List Byte) (s : State), ∃ t, exec (.write buf) s = .next t
    ∧ t.tickScale = s.tickScale ∧ t.rx = s.rx ∧ t.inputs = s.inputs ∧ t.clock = s.clock ∧ t.tick = s.tick
    ∧ t.tx.bit = s.tx.bit
    ∧ readsOf t.log = readsOf s.log ∧ receiveEvents t.log = receiveEvents s.log)

/-! ## The tick -/

/-- A step runs the operations the map selects, one after the other, and then ends the tick: outside reset DET_PREV takes the
level of DET and the tick number advances; always the input is used up and the clock advances. -/
def Obligations.StepRunsTheSelectedOperations : Prop :=
  ∀ s : State, ∃ t, runAll (selected (currentInput s) s) s = .next t
    ∧ ((currentInput s).rst = true → step s = .next { t with inputs := s.inputs.tail, clock := s.clock + 1 })
    ∧ ((currentInput s).rst = false → step s = .next { t with
        rx := { t.rx with detPrev := detOf (currentInput s) s }
        inputs := s.inputs.tail, clock := s.clock + 1, tick := s.tick + 1 })

/-- The model's way of bringing an operation about (log entry 9): when the operation i is presented, the next step is exec of
i at that state followed by the end of the tick; and the bits of a frame present the DECODE they decode to. -/
def Obligations.StepRunsThePresentedOperation : Prop :=
  (∀ (i : Instr) (s : State), 0 < s.tickScale → ∃ t, exec i (present i s) = .next t
    ∧ step (present i s) = .next (endTick (currentInput (present i s)) (present i s) t))
  ∧ ∀ (d : Byte) (s : State), s.withFetchWord 16 (frameWord d).toNat = present (.decode d) s

/-- The operation map of 30_encoding.md section 3, with the model's division of ENCODE and SEQ into ticks (log entry 1): on
every state that meets the invariant, each operation is selected exactly on its condition; READ in a reset tick too, which is
the model's inference, log entry 7. -/
def Obligations.OperationsAreSelectedOnTheirConditions : Prop :=
  ∀ (s : State) (inp : Input), Inv s →
    (Instr.read ∈ selected inp s ↔ 0 < inp.readers)
    ∧ (Instr.reset ∈ selected inp s ↔ inp.rst = true)
    ∧ (inp.rst = false →
      ((∃ d, Instr.decode d ∈ selected inp s ∧ s.rx.phase = .idle)
        ↔ s.rx.phase = .idle ∧ s.rx.armed = true ∧ s.rx.detPrev = .high ∧ detOf inp s = .low)
      ∧ (Instr.publish ∈ selected inp s ↔ s.rx.phase = .wait ∧ s.rx.bit = 7 ∧ s.rx.cnt = 1)
      ∧ (∀ b, Instr.encode b ∈ selected inp s
        ↔ b = s.tx.cur ∧ (s.tx.phase = .start ∨ s.tx.phase = .data ∨ (s.tx.phase = .stop ∧ 1 < s.tx.cnt)))
      ∧ (∀ buf, Instr.seq buf ∈ selected inp s
        ↔ buf = s.tx.buf ∧ ((s.tx.phase = .stop ∧ s.tx.cnt = 1) ∨ s.tx.phase = .cool))
      ∧ (∀ buf, Instr.write buf ∈ selected inp s ↔ inp.wr = some buf ∧ s.tx.phase = .idle))

/-- The model's reading of 30_encoding.md section 3 (log entry 1): an operation whose condition does not hold does nothing. -/
def Obligations.OperationsNotSelectedDoNothing : Prop :=
  ∀ s : State,
    (∀ d, s.rx.phase = .idle → (s.rx.armed = false ∨ s.rx.detPrev = .low) → exec (.decode d) s = .next s)
    ∧ ((s.rx.phase ≠ .wait ∨ s.rx.bit ≠ 7 ∨ 1 < s.rx.cnt) → exec .publish s = .next s)
    ∧ (∀ b, (s.tx.phase = .idle ∨ s.tx.phase = .cool ∨ (s.tx.phase = .stop ∧ s.tx.cnt ≤ 1)) →
      exec (.encode b) s = .next s)
    ∧ (∀ buf, (s.tx.phase = .idle ∨ s.tx.phase = .start ∨ s.tx.phase = .data ∨ (s.tx.phase = .stop ∧ 1 < s.tx.cnt)) →
      exec (.seq buf) s = .next s)

/-- 44_block_step.md R155 with the pseudocode of 40_decode.md R98, 41_encode.md R115 and 42_sequencer.md R133: from every
state and under every input the step answers exactly one next state, the spec's Step; transmit events come before receive
events, every READ gets RXREG of this tick, and K stays. That READs are served in a reset tick too is the model's inference,
log entry 7 (DEDUCED): none of these rules says it. -/
def Obligations.StepIsTheSpecsBlockStep : Prop :=
  ∀ s : State, ∃ t tx rx ev, step s = .next t
    ∧ blockStep s.tickScale t.rx.reg (detOf (currentInput s) s) (currentInput s).wr (currentInput s).rst s.tx s.rx
      = (tx, rx, ev)
    ∧ t.tx = tx ∧ t.rx = rx
    ∧ eventsOf t.log = (ev.map fun e => (s.clock, e)).reverse ++ eventsOf s.log
    ∧ readsOf t.log = List.replicate (currentInput s).readers (s.clock, s.rx.reg) ++ readsOf s.log
    ∧ t.tickScale = s.tickScale ∧ t.inputs = s.inputs.tail ∧ t.clock = s.clock + 1

/-- 44_block_step.md R157: one tick emits at most one event of each engine, the transmit engine's first. -/
def Obligations.AtMostOneEventOfEachEngineInOneTick : Prop :=
  ∀ s : State, ∃ t evT evR, step s = .next t ∧ eventsOf t.log = evR ++ (evT ++ eventsOf s.log)
    ∧ evT.length ≤ 1 ∧ evR.length ≤ 1
    ∧ (∀ p ∈ evT, p.1 = s.clock ∧ p.2.isTransmit = true) ∧ (∀ p ∈ evR, p.1 = s.clock ∧ p.2.isTransmit = false)

/-- 10_state.md R35: the output ports as functions of the state: RD_DATA is what a READ returns, a WRITE offered is accepted
exactly where WR_READY is 1, and RX_BUSY = 1 - RX_ARMED on every state that meets the invariant. -/
def Obligations.OutputsAreFunctionsOfTheState : Prop :=
  ∀ s : State, (outputs s).emit = s.tx.emit ∧ (outputs s).rdData = s.rx.reg
    ∧ ((outputs s).wrReady = true ↔ s.tx.phase = .idle) ∧ ((outputs s).rxBusy = true ↔ s.rx.phase ≠ .idle)
    ∧ exec .read s = .next { s with log := (s.clock, .readData (outputs s).rdData) :: s.log }
    ∧ (∀ (inp : Input) (buf : List Byte), inp.rst = false → inp.wr = some buf →
        (Instr.write buf ∈ selected inp s ↔ (outputs s).wrReady = true))
    ∧ (Inv s → (outputs s).rxBusy = !s.rx.armed)

/-- The two engines share no state (10_state.md section 1, 20_memory.md section 3): what the transmit engine does in a tick
does not depend on the receive elements nor on what drives DET. -/
def Obligations.TransmitDoesNotDependOnReceive : Prop :=
  ∀ s s' t t' : State, s.tickScale = s'.tickScale → s.tx = s'.tx → s.clock = s'.clock →
    (currentInput s).wr = (currentInput s').wr → (currentInput s).rst = (currentInput s').rst →
    transmitEvents s.log = transmitEvents s'.log → step s = .next t → step s' = .next t' →
    t.tx = t'.tx ∧ transmitEvents t.log = transmitEvents t'.log

/-- The two engines share no state: outside reset, what the receive engine does in a tick depends on the transmit elements
only through the level they put on DET, and not on WR. -/
def Obligations.ReceiveDoesNotDependOnTransmit : Prop :=
  ∀ s s' t t' : State, s.tickScale = s'.tickScale → s.rx = s'.rx → s.clock = s'.clock →
    detOf (currentInput s) s = detOf (currentInput s') s' →
    (currentInput s).rst = false → (currentInput s').rst = false →
    receiveEvents s.log = receiveEvents s'.log → step s = .next t → step s' = .next t' →
    t.rx = t'.rx ∧ receiveEvents t.log = receiveEvents t'.log

/-! ## The invariant -/

/-- The reset state meets the invariant. -/
def Obligations.ResetStateMeetsTheInvariant : Prop := Inv State.reset

/-- The spec's derived invariants of 10_state.md section 7, with the ranges of its counters and indices: every step from a
state that meets them answers a state that meets them. -/
def Obligations.EveryStepKeepsTheInvariant : Prop :=
  ∀ s t : State, Inv s → step s = .next t → Inv t

/-! ## Frames as bits -/

/-- Decoding the encoded form of a well-formed operation gives it back, with every operand at every value. The forms and the
numbering of a frame's symbols are the model's choice, log entry 9. -/
def Obligations.DecodingAnEncodedOperationGivesItBack : Prop :=
  ∀ i : Instr, i.wellFormed = true → decodeForm (encode i) = .ok i

/-- Words written out from the pattern of 30_encoding.md section 1: the frames of 0x48 and 0x69, a frame without its stop
symbol, a line with no falling edge, a train of no frames. Frames as numbers, the table's word read as DECODE (ENCODE has the
same pattern), and the rejection of an emitter frame without a stop or of an empty train are the model's choice, log entry 9
(DESIGN CHOICE). -/
def Obligations.FrameWordsDecodeAsThePatternSays : Prop :=
  decodeForm (.frame10 .detector 0b0000100101#10) = .ok (.decode 0x48#8)
    ∧ decodeForm (.frame10 .emitter 0b0100101101#10) = .ok (.encode 0x69#8)
    ∧ decodeForm (.frame10 .detector 0b0000100100#10) = .ok (.decode 0x48#8)
    ∧ decodeForm (.frame10 .emitter 0b0000100100#10) = .error .notAFrame
    ∧ decodeForm (.frame10 .detector 0b1000100101#10) = .error .noFallingEdge
    ∧ decodeForm (.frameTrain [0b0000100101#10, 0b0100101101#10]) = .ok (.seq [0x48#8, 0x69#8])
    ∧ decodeForm (.frameTrain []) = .error .emptyTrain
    ∧ decodeTableWord 16 0b0000100101 = some (.decode 0x48#8)

/-! ## The link -/

/-- The round-trip property, the spec's derived rule in 41_encode.md section 3: in loopback, the first byte of a write made
with both engines idle is what RXREG holds 1 + N_SETTLE + 8 N_UNIT ticks after the write's tick, for every byte. -/
def Obligations.LoopbackReceivesTheByteWritten : Prop :=
  ∀ (s : State) (b : Byte) (bs : List Byte), Inv s → Quiescent s → (currentInput s).wr = some (b :: bs) →
    LoopbackFor (decodeTicks s.tickScale + 2) s → NoResetFor (decodeTicks s.tickScale + 2) s →
    ∃ t, run (decodeTicks s.tickScale + 2) s = .next t ∧ t.rx.reg = b

/-- The matched link of 44_block_step.md (decision D3): a byte written at one end is what the other end's RXREG holds, with
the same timing, whatever the receiving end is sending. -/
def Obligations.MatchedLinkDeliversTheByteWritten : Prop :=
  ∀ (l : Link) (b : Byte) (bs : List Byte), Inv l.a → Inv l.b → l.a.tickScale = l.b.tickScale →
    l.a.tx.phase = .idle → l.b.rx.phase = .idle → (currentInput l.a).wr = some (b :: bs) →
    NoResetFor (decodeTicks l.a.tickScale + 2) l.a → NoResetFor (decodeTicks l.a.tickScale + 2) l.b →
    ∃ l', linkRun (decodeTicks l.a.tickScale + 2) l = .next l' ∧ l'.b.rx.reg = b

/-- The clock mismatch the spec derives in 70_reset_and_hazards.md section 3: a frame whose symbols are held `n` ticks is
received right if 16/17 <= N_UNIT / n < 18/17. -/
def Obligations.ClockDriftInsideTheBandDecodesRight : Prop :=
  ∀ (s : State) (b : Byte) (n : Nat), 0 < s.tickScale → ReadyToReceive s →
    16 * n ≤ 17 * nUnit s.tickScale → 17 * nUnit s.tickScale < 18 * n →
    LineShows (fun j => frameSymbol b (j / n)) (decodeTicks s.tickScale) s →
    NoResetFor (decodeTicks s.tickScale + 1) s →
    ∃ t, run (decodeTicks s.tickScale + 1) s = .next t ∧ t.rx.reg = b
end

