-- ==== Sys2Proof/Laws/State.lean ====
section
/-! SUPPORT. The fields of every update of the state, one lemma for each, so that no proof unfolds a record update. -/

namespace Sys2Proof.Machine

@[simp] theorem State.setRx_tickScale (s : State) (rx : Receive) : (s.setRx rx).tickScale = s.tickScale := rfl
@[simp] theorem State.setRx_rx (s : State) (rx : Receive) : (s.setRx rx).rx = rx := rfl
@[simp] theorem State.setRx_tx (s : State) (rx : Receive) : (s.setRx rx).tx = s.tx := rfl
@[simp] theorem State.setRx_inputs (s : State) (rx : Receive) : (s.setRx rx).inputs = s.inputs := rfl
@[simp] theorem State.setRx_clock (s : State) (rx : Receive) : (s.setRx rx).clock = s.clock := rfl
@[simp] theorem State.setRx_tick (s : State) (rx : Receive) : (s.setRx rx).tick = s.tick := rfl
@[simp] theorem State.setRx_log (s : State) (rx : Receive) : (s.setRx rx).log = s.log := rfl

@[simp] theorem State.setTx_tickScale (s : State) (tx : Transmit) : (s.setTx tx).tickScale = s.tickScale := rfl
@[simp] theorem State.setTx_rx (s : State) (tx : Transmit) : (s.setTx tx).rx = s.rx := rfl
@[simp] theorem State.setTx_tx (s : State) (tx : Transmit) : (s.setTx tx).tx = tx := rfl
@[simp] theorem State.setTx_inputs (s : State) (tx : Transmit) : (s.setTx tx).inputs = s.inputs := rfl
@[simp] theorem State.setTx_clock (s : State) (tx : Transmit) : (s.setTx tx).clock = s.clock := rfl
@[simp] theorem State.setTx_tick (s : State) (tx : Transmit) : (s.setTx tx).tick = s.tick := rfl
@[simp] theorem State.setTx_log (s : State) (tx : Transmit) : (s.setTx tx).log = s.log := rfl

@[simp] theorem State.observe_tickScale (s : State) (o : Observation) : (s.observe o).tickScale = s.tickScale := rfl
@[simp] theorem State.observe_rx (s : State) (o : Observation) : (s.observe o).rx = s.rx := rfl
@[simp] theorem State.observe_tx (s : State) (o : Observation) : (s.observe o).tx = s.tx := rfl
@[simp] theorem State.observe_inputs (s : State) (o : Observation) : (s.observe o).inputs = s.inputs := rfl
@[simp] theorem State.observe_clock (s : State) (o : Observation) : (s.observe o).clock = s.clock := rfl
@[simp] theorem State.observe_tick (s : State) (o : Observation) : (s.observe o).tick = s.tick := rfl
@[simp] theorem State.observe_log (s : State) (o : Observation) : (s.observe o).log = (s.clock, o) :: s.log := rfl

@[simp] theorem Receive.takeEdge_reg (k : Nat) (rx : Receive) : (rx.takeEdge k).reg = rx.reg := rfl
@[simp] theorem Receive.takeEdge_acc (k : Nat) (rx : Receive) : (rx.takeEdge k).acc = 0x00#8 := rfl
@[simp] theorem Receive.takeEdge_bit (k : Nat) (rx : Receive) : (rx.takeEdge k).bit = 0 := rfl
@[simp] theorem Receive.takeEdge_cnt (k : Nat) (rx : Receive) : (rx.takeEdge k).cnt = nSettle k := rfl
@[simp] theorem Receive.takeEdge_phase (k : Nat) (rx : Receive) : (rx.takeEdge k).phase = .settle := rfl
@[simp] theorem Receive.takeEdge_armed (k : Nat) (rx : Receive) : (rx.takeEdge k).armed = false := rfl
@[simp] theorem Receive.takeEdge_detPrev (k : Nat) (rx : Receive) : (rx.takeEdge k).detPrev = rx.detPrev := rfl

@[simp] theorem Receive.returnFromEdge_reg (rx : Receive) : (rx.returnFromEdge).reg = rx.acc := rfl
@[simp] theorem Receive.returnFromEdge_acc (rx : Receive) : (rx.returnFromEdge).acc = rx.acc := rfl
@[simp] theorem Receive.returnFromEdge_bit (rx : Receive) : (rx.returnFromEdge).bit = rx.bit := rfl
@[simp] theorem Receive.returnFromEdge_cnt (rx : Receive) : (rx.returnFromEdge).cnt = rx.cnt := rfl
@[simp] theorem Receive.returnFromEdge_phase (rx : Receive) : (rx.returnFromEdge).phase = .idle := rfl
@[simp] theorem Receive.returnFromEdge_armed (rx : Receive) : (rx.returnFromEdge).armed = true := rfl
@[simp] theorem Receive.returnFromEdge_detPrev (rx : Receive) : (rx.returnFromEdge).detPrev = rx.detPrev := rfl

@[simp] theorem Receive.sample_reg (k : Nat) (i : Fin 8) (det : Level) (rx : Receive) : (rx.sample k i det).reg = rx.reg := rfl
@[simp] theorem Receive.sample_acc (k : Nat) (i : Fin 8) (det : Level) (rx : Receive) : (rx.sample k i det).acc = accumulate rx.acc i det := rfl
@[simp] theorem Receive.sample_bit (k : Nat) (i : Fin 8) (det : Level) (rx : Receive) : (rx.sample k i det).bit = i := rfl
@[simp] theorem Receive.sample_cnt (k : Nat) (i : Fin 8) (det : Level) (rx : Receive) : (rx.sample k i det).cnt = nUnit k := rfl
@[simp] theorem Receive.sample_phase (k : Nat) (i : Fin 8) (det : Level) (rx : Receive) : (rx.sample k i det).phase = .wait := rfl
@[simp] theorem Receive.sample_armed (k : Nat) (i : Fin 8) (det : Level) (rx : Receive) : (rx.sample k i det).armed = rx.armed := rfl
@[simp] theorem Receive.sample_detPrev (k : Nat) (i : Fin 8) (det : Level) (rx : Receive) : (rx.sample k i det).detPrev = rx.detPrev := rfl

@[simp] theorem Receive.countDown_reg (rx : Receive) : (rx.countDown).reg = rx.reg := rfl
@[simp] theorem Receive.countDown_acc (rx : Receive) : (rx.countDown).acc = rx.acc := rfl
@[simp] theorem Receive.countDown_bit (rx : Receive) : (rx.countDown).bit = rx.bit := rfl
@[simp] theorem Receive.countDown_cnt (rx : Receive) : (rx.countDown).cnt = rx.cnt - 1 := rfl
@[simp] theorem Receive.countDown_phase (rx : Receive) : (rx.countDown).phase = rx.phase := rfl
@[simp] theorem Receive.countDown_armed (rx : Receive) : (rx.countDown).armed = rx.armed := rfl
@[simp] theorem Receive.countDown_detPrev (rx : Receive) : (rx.countDown).detPrev = rx.detPrev := rfl

@[simp] theorem Transmit.startFrame_emit (k i : Nat) (b : Byte) (tx : Transmit) : (tx.startFrame k i b).emit = .low := rfl
@[simp] theorem Transmit.startFrame_phase (k i : Nat) (b : Byte) (tx : Transmit) : (tx.startFrame k i b).phase = .start := rfl
@[simp] theorem Transmit.startFrame_bit (k i : Nat) (b : Byte) (tx : Transmit) : (tx.startFrame k i b).bit = tx.bit := rfl
@[simp] theorem Transmit.startFrame_cnt (k i : Nat) (b : Byte) (tx : Transmit) : (tx.startFrame k i b).cnt = nUnit k := rfl
@[simp] theorem Transmit.startFrame_cur (k i : Nat) (b : Byte) (tx : Transmit) : (tx.startFrame k i b).cur = b := rfl
@[simp] theorem Transmit.startFrame_buf (k i : Nat) (b : Byte) (tx : Transmit) : (tx.startFrame k i b).buf = tx.buf := rfl
@[simp] theorem Transmit.startFrame_idx (k i : Nat) (b : Byte) (tx : Transmit) : (tx.startFrame k i b).idx = i := rfl

@[simp] theorem Transmit.driveData_emit (k : Nat) (b : Byte) (i : Fin 8) (tx : Transmit) : (tx.driveData k b i).emit = dataSymbol b i := rfl
@[simp] theorem Transmit.driveData_phase (k : Nat) (b : Byte) (i : Fin 8) (tx : Transmit) : (tx.driveData k b i).phase = .data := rfl
@[simp] theorem Transmit.driveData_bit (k : Nat) (b : Byte) (i : Fin 8) (tx : Transmit) : (tx.driveData k b i).bit = i := rfl
@[simp] theorem Transmit.driveData_cnt (k : Nat) (b : Byte) (i : Fin 8) (tx : Transmit) : (tx.driveData k b i).cnt = nUnit k := rfl
@[simp] theorem Transmit.driveData_cur (k : Nat) (b : Byte) (i : Fin 8) (tx : Transmit) : (tx.driveData k b i).cur = tx.cur := rfl
@[simp] theorem Transmit.driveData_buf (k : Nat) (b : Byte) (i : Fin 8) (tx : Transmit) : (tx.driveData k b i).buf = tx.buf := rfl
@[simp] theorem Transmit.driveData_idx (k : Nat) (b : Byte) (i : Fin 8) (tx : Transmit) : (tx.driveData k b i).idx = tx.idx := rfl

@[simp] theorem Transmit.driveStop_emit (k : Nat) (tx : Transmit) : (tx.driveStop k).emit = .high := rfl
@[simp] theorem Transmit.driveStop_phase (k : Nat) (tx : Transmit) : (tx.driveStop k).phase = .stop := rfl
@[simp] theorem Transmit.driveStop_bit (k : Nat) (tx : Transmit) : (tx.driveStop k).bit = tx.bit := rfl
@[simp] theorem Transmit.driveStop_cnt (k : Nat) (tx : Transmit) : (tx.driveStop k).cnt = nUnit k := rfl
@[simp] theorem Transmit.driveStop_cur (k : Nat) (tx : Transmit) : (tx.driveStop k).cur = tx.cur := rfl
@[simp] theorem Transmit.driveStop_buf (k : Nat) (tx : Transmit) : (tx.driveStop k).buf = tx.buf := rfl
@[simp] theorem Transmit.driveStop_idx (k : Nat) (tx : Transmit) : (tx.driveStop k).idx = tx.idx := rfl

@[simp] theorem Transmit.startCooldown_emit (k : Nat) (tx : Transmit) : (tx.startCooldown k).emit = tx.emit := rfl
@[simp] theorem Transmit.startCooldown_phase (k : Nat) (tx : Transmit) : (tx.startCooldown k).phase = .cool := rfl
@[simp] theorem Transmit.startCooldown_bit (k : Nat) (tx : Transmit) : (tx.startCooldown k).bit = tx.bit := rfl
@[simp] theorem Transmit.startCooldown_cnt (k : Nat) (tx : Transmit) : (tx.startCooldown k).cnt = nCooldown k := rfl
@[simp] theorem Transmit.startCooldown_cur (k : Nat) (tx : Transmit) : (tx.startCooldown k).cur = tx.cur := rfl
@[simp] theorem Transmit.startCooldown_buf (k : Nat) (tx : Transmit) : (tx.startCooldown k).buf = tx.buf := rfl
@[simp] theorem Transmit.startCooldown_idx (k : Nat) (tx : Transmit) : (tx.startCooldown k).idx = tx.idx := rfl

@[simp] theorem Transmit.finish_emit (tx : Transmit) : (tx.finish).emit = tx.emit := rfl
@[simp] theorem Transmit.finish_phase (tx : Transmit) : (tx.finish).phase = .idle := rfl
@[simp] theorem Transmit.finish_bit (tx : Transmit) : (tx.finish).bit = tx.bit := rfl
@[simp] theorem Transmit.finish_cnt (tx : Transmit) : (tx.finish).cnt = tx.cnt := rfl
@[simp] theorem Transmit.finish_cur (tx : Transmit) : (tx.finish).cur = tx.cur := rfl
@[simp] theorem Transmit.finish_buf (tx : Transmit) : (tx.finish).buf = tx.buf := rfl
@[simp] theorem Transmit.finish_idx (tx : Transmit) : (tx.finish).idx = tx.idx := rfl

@[simp] theorem Transmit.countDown_emit (tx : Transmit) : (tx.countDown).emit = tx.emit := rfl
@[simp] theorem Transmit.countDown_phase (tx : Transmit) : (tx.countDown).phase = tx.phase := rfl
@[simp] theorem Transmit.countDown_bit (tx : Transmit) : (tx.countDown).bit = tx.bit := rfl
@[simp] theorem Transmit.countDown_cnt (tx : Transmit) : (tx.countDown).cnt = tx.cnt - 1 := rfl
@[simp] theorem Transmit.countDown_cur (tx : Transmit) : (tx.countDown).cur = tx.cur := rfl
@[simp] theorem Transmit.countDown_buf (tx : Transmit) : (tx.countDown).buf = tx.buf := rfl
@[simp] theorem Transmit.countDown_idx (tx : Transmit) : (tx.countDown).idx = tx.idx := rfl

@[simp] theorem Receive.reset_reg (reg : Byte) : (Receive.reset reg).reg = reg := rfl
@[simp] theorem Receive.reset_acc (reg : Byte) : (Receive.reset reg).acc = 0#8 := rfl
@[simp] theorem Receive.reset_bit (reg : Byte) : (Receive.reset reg).bit = 0 := rfl
@[simp] theorem Receive.reset_cnt (reg : Byte) : (Receive.reset reg).cnt = 0 := rfl
@[simp] theorem Receive.reset_phase (reg : Byte) : (Receive.reset reg).phase = .idle := rfl
@[simp] theorem Receive.reset_armed (reg : Byte) : (Receive.reset reg).armed = true := rfl
@[simp] theorem Receive.reset_detPrev (reg : Byte) : (Receive.reset reg).detPrev = .low := rfl

@[simp] theorem Transmit.reset_emit  : (Transmit.reset).emit = .high := rfl
@[simp] theorem Transmit.reset_phase  : (Transmit.reset).phase = .idle := rfl
@[simp] theorem Transmit.reset_bit  : (Transmit.reset).bit = 0 := rfl
@[simp] theorem Transmit.reset_cnt  : (Transmit.reset).cnt = 0 := rfl
@[simp] theorem Transmit.reset_cur  : (Transmit.reset).cur = 0#8 := rfl
@[simp] theorem Transmit.reset_buf  : (Transmit.reset).buf = [] := rfl
@[simp] theorem Transmit.reset_idx  : (Transmit.reset).idx = 0 := rfl

/-! Emitting events changes the log alone. -/

@[simp] theorem State.emitAll_tickScale (s : State) (es : List Event) : (s.emitAll es).tickScale = s.tickScale := by
  induction es generalizing s with
  | nil => rfl
  | cons e es ih => simpa [State.emitAll] using ih (s.observe (.event e))

@[simp] theorem State.emitAll_rx (s : State) (es : List Event) : (s.emitAll es).rx = s.rx := by
  induction es generalizing s with
  | nil => rfl
  | cons e es ih => simpa [State.emitAll] using ih (s.observe (.event e))

@[simp] theorem State.emitAll_tx (s : State) (es : List Event) : (s.emitAll es).tx = s.tx := by
  induction es generalizing s with
  | nil => rfl
  | cons e es ih => simpa [State.emitAll] using ih (s.observe (.event e))

@[simp] theorem State.emitAll_inputs (s : State) (es : List Event) : (s.emitAll es).inputs = s.inputs := by
  induction es generalizing s with
  | nil => rfl
  | cons e es ih => simpa [State.emitAll] using ih (s.observe (.event e))

@[simp] theorem State.emitAll_clock (s : State) (es : List Event) : (s.emitAll es).clock = s.clock := by
  induction es generalizing s with
  | nil => rfl
  | cons e es ih => simpa [State.emitAll] using ih (s.observe (.event e))

@[simp] theorem State.emitAll_tick (s : State) (es : List Event) : (s.emitAll es).tick = s.tick := by
  induction es generalizing s with
  | nil => rfl
  | cons e es ih => simpa [State.emitAll] using ih (s.observe (.event e))

@[simp] theorem State.emitAll_log (s : State) (es : List Event) :
    (s.emitAll es).log = (es.map fun e => (s.clock, Observation.event e)).reverse ++ s.log := by
  induction es generalizing s with
  | nil => rfl
  | cons e es ih => simp [State.emitAll, ih]

/-! The end of a tick. -/

@[simp] theorem endTick_tickScale (inp : Input) (s t : State) : (endTick inp s t).tickScale = t.tickScale := by
  cases h : inp.rst <;> simp [endTick, h]

@[simp] theorem endTick_tx (inp : Input) (s t : State) : (endTick inp s t).tx = t.tx := by
  cases h : inp.rst <;> simp [endTick, h]

@[simp] theorem endTick_inputs (inp : Input) (s t : State) : (endTick inp s t).inputs = s.inputs.tail := by
  cases h : inp.rst <;> simp [endTick, h]

@[simp] theorem endTick_clock (inp : Input) (s t : State) : (endTick inp s t).clock = s.clock + 1 := by
  cases h : inp.rst <;> simp [endTick, h]

@[simp] theorem endTick_log (inp : Input) (s t : State) : (endTick inp s t).log = t.log := by
  cases h : inp.rst <;> simp [endTick, h]

theorem endTick_rx_of_reset (inp : Input) (s t : State) (h : inp.rst = true) : (endTick inp s t).rx = t.rx := by
  simp [endTick, h]

theorem endTick_rx (inp : Input) (s t : State) (h : inp.rst = false) :
    (endTick inp s t).rx = { t.rx with detPrev := detOf inp s } := by
  simp [endTick, h]

theorem endTick_tick_of_reset (inp : Input) (s t : State) (h : inp.rst = true) : (endTick inp s t).tick = t.tick := by
  simp [endTick, h]

theorem endTick_tick (inp : Input) (s t : State) (h : inp.rst = false) : (endTick inp s t).tick = s.tick + 1 := by
  simp [endTick, h]

end Sys2Proof.Machine
end

