-- ==== Sys2Proof/Laws/Ops.lean ====
section
/-! SUPPORT. What each shared operation can do, said once: the forms of an operand, the ticks of the two engines, and what
running a list of operations answers. -/

namespace Sys2Proof.Machine

/-! Operands. -/

@[simp] theorem levelOfBit_bitOfLevel (l : Level) : levelOfBit (bitOfLevel l) = l := by cases l <;> rfl

@[simp] theorem bitOfLevel_levelOfBit (b : Bool) : bitOfLevel (levelOfBit b) = b := by cases b <;> rfl

@[simp] theorem dataSymbol_lineHeld (l : Level) (i : Fin 8) : dataSymbol (lineHeld l) i = l := by
  revert i; cases l <;> decide

@[simp] theorem detLevel_level (l emit : Level) : detLevel (.level l) emit = l := rfl

@[simp] theorem detLevel_loopback (emit : Level) : detLevel .loopback emit = emit := rfl

theorem nextSymbol_of_lt {i : Fin 8} (h : i.val < 7) : nextSymbol i = some ⟨i.val + 1, Nat.succ_lt_succ h⟩ := dif_pos h

theorem nextSymbol_last {i : Fin 8} (h : ¬ i.val < 7) : nextSymbol i = none := dif_neg h

theorem accumulate_getLsbD (acc : Byte) (i : Fin 8) (l : Level) (j : Nat) :
    (accumulate acc i l).getLsbD j = (acc.getLsbD j || (decide (j = i.val) && bitOfLevel l)) := by
  have hi := i.isLt
  by_cases h : j = i.val
  · subst h; simp [accumulate, zext8, hi]
  · by_cases hlt : j < i.val
    · simp [accumulate, zext8, h, hlt]
    · have : j - i.val ≠ 0 := by omega
      simp [accumulate, zext8, h, this]

/-- PUBLISH is due at the end of the wait after sample 7 and nowhere else. -/
theorem publishDue_iff (rx : Receive) : publishDue rx = true ↔ rx.phase = .wait ∧ ¬ rx.bit.val < 7 ∧ rx.cnt ≤ 1 := by
  by_cases h : rx.bit.val < 7 <;> simp [publishDue, nextSymbol, h]

theorem edge_iff (rx : Receive) (det : Level) :
    edge rx det = true ↔ rx.armed = true ∧ rx.detPrev = .high ∧ det = .low := by
  simp [edge, and_assoc]

/-! The receive engine. -/

/-- One receive tick does nothing, enters a decode, counts, samples or publishes. -/
theorem decodeTick_cases (k : Nat) (det : Level) (rx : Receive) :
    (rx.phase = .idle ∧ edge rx det = false ∧ decodeTick k det rx = (rx, []))
    ∨ (rx.phase = .idle ∧ edge rx det = true ∧ decodeTick k det rx = (rx.takeEdge k, [.rxStart]))
    ∨ (rx.phase ≠ .idle ∧ 1 < rx.cnt ∧ decodeTick k det rx = (rx.countDown, []))
    ∨ (rx.phase = .settle ∧ rx.cnt ≤ 1 ∧ decodeTick k det rx = (rx.sample k 0 det, []))
    ∨ (rx.phase = .wait ∧ rx.cnt ≤ 1
        ∧ ∃ h : rx.bit.val < 7, decodeTick k det rx = (rx.sample k ⟨rx.bit.val + 1, Nat.succ_lt_succ h⟩ det, []))
    ∨ (publishDue rx = true ∧ decodeTick k det rx = (rx.returnFromEdge, [.rxDone rx.acc])) := by
  by_cases hc : 1 < rx.cnt
  · cases hp : rx.phase <;> simp [decodeTick, hp, hc]
    cases he : edge rx det <;> simp
  · by_cases hb : rx.bit.val < 7
    · cases hp : rx.phase <;> simp [decodeTick, hp, hc, hb, nextSymbol, Nat.le_of_not_lt hc]
      cases he : edge rx det <;> simp
    · cases hp : rx.phase with
      | idle => cases he : edge rx det <;> simp [decodeTick, hp, he]
      | settle => simp [decodeTick, hp, hc, Nat.le_of_not_lt hc]
      | wait => simp [decodeTick, hp, hc, hb, nextSymbol, Nat.le_of_not_lt hc, publishDue]

/-- The spec's RxStep is the receive tick and the tracking of DET_PREV. -/
theorem rxStep_eq (k : Nat) (det : Level) (rx : Receive) :
    rxStep k det rx = ({ (decodeTick k det rx).1 with detPrev := det }, (decodeTick k det rx).2) := by
  obtain ⟨reg, acc, bit, cnt, phase, armed, detPrev⟩ := rx
  by_cases hc : 1 < cnt <;> by_cases hb : bit.val < 7 <;> cases phase <;> cases armed <;> cases detPrev <;> cases det <;>
    simp [rxStep, decodeTick, edge, hc, hb, nextSymbol, Receive.takeEdge, Receive.countDown, Receive.sample,
      Receive.returnFromEdge, accumulate, nSettle, nUnit]

/-- Where a decode or a start edge is in sight, a line held at `det` gives DECODE the level it needs. -/
theorem decodeTick_lineHeld (k : Nat) (det : Level) (rx : Receive) (h : rx.phase = .idle → edge rx det = true) :
    decodeTick k (levelPresented (lineHeld det) rx) rx = decodeTick k det rx := by
  cases hp : rx.phase
  · obtain ⟨-, -, rfl⟩ := (edge_iff rx det).1 (h hp)
    simp [levelPresented, hp]
  · simp [levelPresented, hp]
  · cases hn : nextSymbol rx.bit <;> simp [levelPresented, hp, hn, decodeTick]

/-! Running operations. -/

/-- No operation faults or is refused. -/
theorem exec_total (i : Instr) (s : State) : ∃ t, exec i s = .next t := by
  cases i with
  | decode d => exact ⟨_, rfl⟩
  | publish => by_cases h : publishDue s.rx = true <;> simp [exec, execPublish, h]
  | encode b => exact ⟨_, rfl⟩
  | seq buf => exact ⟨_, rfl⟩
  | read => exact ⟨_, rfl⟩
  | write buf => cases buf <;> by_cases h : wrReady s.tx = true <;> simp [exec, execWrite, h]
  | reset => exact ⟨_, rfl⟩

theorem runAll_append (is js : List Instr) (s : State) :
    runAll (is ++ js) s = (match runAll is s with
      | .next t => runAll js t
      | .fault f => .fault f
      | .refused r => .refused r) := by
  induction is generalizing s with
  | nil => rfl
  | cons i is ih =>
    obtain ⟨t, ht⟩ := exec_total i s
    simp [runAll, ht, ih]

/-- The READs of a tick return RXREG as often as there are readers and change nothing else. -/
theorem runAll_reads (n : Nat) (js : List Instr) (s : State) :
    runAll (List.replicate n .read ++ js) s
      = runAll js { s with log := List.replicate n (s.clock, .readData s.rx.reg) ++ s.log } := by
  induction n generalizing s with
  | zero => rfl
  | succ n ih =>
    simp only [List.replicate_succ, List.cons_append, runAll, exec, execRead]
    rw [ih]
    simp only [State.observe]
    rw [List.append_cons, ← List.replicate_succ', List.replicate_succ, List.cons_append]

/-- The selected receive operation is one tick of the receive engine. -/
theorem runAll_selectReceive (det : Level) (s : State) :
    runAll (selectReceive det s.rx) s
      = .next ((s.setRx (decodeTick s.tickScale det s.rx).1).emitAll (decodeTick s.tickScale det s.rx).2) := by
  by_cases hp : publishDue s.rx = true
  · obtain ⟨hw, hb, hc⟩ := (publishDue_iff s.rx).1 hp
    have hd : decodeTick s.tickScale det s.rx = (s.rx.returnFromEdge, [.rxDone s.rx.acc]) := by
      simp [decodeTick, hw, Nat.not_lt.2 hc, nextSymbol_last hb]
    simp [selectReceive, hp, runAll, exec, execPublish, hd]
  · by_cases hi : s.rx.phase = .idle ∧ edge s.rx det = false
    · have hd : decodeTick s.tickScale det s.rx = (s.rx, []) := by simp [decodeTick, hi.1, hi.2]
      simp [selectReceive, hp, hi.1, hi.2, runAll, hd, State.setRx, State.emitAll]
    · have hl := decodeTick_lineHeld s.tickScale det s.rx (fun h => by simpa [h] using hi)
      have hs : selectReceive det s.rx = [.decode (lineHeld det)] := by
        simp only [selectReceive, hp, Bool.false_eq_true, if_false]
        by_cases h : s.rx.phase = .idle <;> simp_all
      simp [hs, runAll, exec, execDecode, hl]

/-- The selected transmit operation is one tick of the spec's TxStep. -/
theorem runAll_selectTransmit (wr : Option (List Byte)) (s : State) :
    runAll (selectTransmit wr s.tx) s
      = .next ((s.setTx (txStep s.tickScale wr s.tx).1).emitAll (txStep s.tickScale wr s.tx).2) := by
  obtain ⟨k, rx, ⟨emit, phase, bit, cnt, cur, buf, idx⟩, inputs, clock, tick, log⟩ := s
  cases phase with
  | idle =>
    rcases wr with _ | _ | ⟨b, bs⟩ <;>
      simp [selectTransmit, runAll, exec, execWrite, wrReady, txStep, State.setTx, State.emitAll, Transmit.startFrame, nUnit]
  | start =>
    by_cases hc : 1 < cnt <;>
      simp [selectTransmit, runAll, exec, execEncode, encodeTick, txStep, hc, State.setTx, State.emitAll,
        Transmit.countDown, Transmit.driveData, dataSymbol, nUnit]
  | data =>
    by_cases hc : 1 < cnt <;> by_cases hb : bit.val < 7 <;>
      simp [selectTransmit, runAll, exec, execEncode, encodeTick, txStep, hc, hb, nextSymbol, State.setTx, State.emitAll,
        Transmit.countDown, Transmit.driveData, Transmit.driveStop, dataSymbol, nUnit]
  | stop =>
    by_cases hc : 1 < cnt <;>
      simp [selectTransmit, runAll, exec, execEncode, encodeTick, execSeq, seqTick, txStep, hc, State.setTx, State.emitAll,
        State.observe, Transmit.countDown, Transmit.startCooldown, nCooldown]
  | cool =>
    by_cases hc : 1 < cnt <;> by_cases hb : idx + 1 < buf.length <;>
      simp [selectTransmit, runAll, exec, execSeq, seqTick, txStep, hc, hb, State.setTx, State.emitAll,
        State.observe, Transmit.countDown, Transmit.startFrame, Transmit.finish, nUnit]

end Sys2Proof.Machine
end

