-- ==== Sys2Proof/Laws/PerInstr.lean ====
section
/-! SUPPORT. Laws said operation by operation. -/

namespace Sys2Proof.Laws

/-- The encoded form of an operation has the format its row of spec/opcode_table.json gives it, and the encoded form of a
well-formed operation is never a train of no frames. -/
def EncodedFormat.Statement (i : Instr) : Prop :=
  (encode i).format = i.format ∧ (i.wellFormed = true → encode i ≠ .frameTrain [])

theorem EncodedFormat.decode (d : Byte) : EncodedFormat.Statement (.decode d) := ⟨rfl, fun _ => nofun⟩

theorem EncodedFormat.publish : EncodedFormat.Statement .publish := ⟨rfl, fun _ => nofun⟩

theorem EncodedFormat.encode (b : Byte) : EncodedFormat.Statement (.encode b) := ⟨rfl, fun _ => nofun⟩

theorem EncodedFormat.seq (buf : List Byte) : EncodedFormat.Statement (.seq buf) := by
  refine ⟨rfl, fun h => ?_⟩
  cases buf with
  | nil => simp [Instr.wellFormed] at h
  | cons b bs => simp [Sys2Proof.encode]

theorem EncodedFormat.read : EncodedFormat.Statement .read := ⟨rfl, fun _ => nofun⟩

theorem EncodedFormat.write (buf : List Byte) : EncodedFormat.Statement (.write buf) := ⟨rfl, fun _ => nofun⟩

theorem EncodedFormat.reset : EncodedFormat.Statement .reset := ⟨rfl, fun _ => nofun⟩

end Sys2Proof.Laws
end

