-- ==== Sys2Proof/Laws/Run.lean ====
section
/-! SUPPORT. Runs: how a run is taken apart, that every run answers a state, and that the inputs a run meets are those that
can be read off its first state. -/

namespace Sys2Proof.Machine

theorem runAll_total (is : List Instr) (s : State) : ∃ t, runAll is s = .next t := by
  induction is generalizing s with
  | nil => exact ⟨s, rfl⟩
  | cons i is ih =>
    obtain ⟨t, ht⟩ := exec_total i s
    simpa [runAll, ht] using ih t

theorem tickWith_eq {inp : Input} {s t : State} (h : runAll (selected inp s) s = .next t) :
    tickWith inp s = .next (endTick inp s t) := by
  simp [tickWith, h]

theorem tickWith_total (inp : Input) (s : State) : ∃ t, tickWith inp s = .next t := by
  obtain ⟨t, h⟩ := runAll_total (selected inp s) s
  exact ⟨_, tickWith_eq h⟩

/-- A step uses up one input and one count of the clock. -/
theorem step_inputs_clock {s t : State} (h : step s = .next t) : t.inputs = s.inputs.tail ∧ t.clock = s.clock + 1 := by
  obtain ⟨u, hu⟩ := runAll_total (selected (currentInput s) s) s
  rw [step, tickWith_eq hu] at h
  cases h
  simp

@[simp] theorem run_zero (s : State) : run 0 s = .next s := rfl

theorem run_succ {s t : State} (n : Nat) (h : step s = .next t) : run (n + 1) s = run n t := by
  have h' : Sys2Proof.core.step s = .next t := h
  simp only [run, Host.Core.run, h']
  rfl

theorem run_one (s : State) : run 1 s = step s := by
  obtain ⟨t, h⟩ := tickWith_total (currentInput s) s
  have h' : step s = .next t := h
  rw [run_succ 0 h', run_zero, h']

theorem run_total (n : Nat) (s : State) : ∃ t, run n s = .next t := by
  induction n generalizing s with
  | zero => exact ⟨s, rfl⟩
  | succ n ih =>
    obtain ⟨t, h⟩ := tickWith_total (currentInput s) s
    rw [run_succ n h]
    exact ih t

theorem run_add {m : Nat} {s t : State} (n : Nat) (h : run m s = .next t) : run (m + n) s = run n t := by
  induction m generalizing s with
  | zero => cases h; simp
  | succ m ih =>
    obtain ⟨u, hu⟩ := tickWith_total (currentInput s) s
    rw [run_succ m hu] at h
    rw [Nat.succ_add, run_succ _ hu, ih h]

theorem run_succ_right {n : Nat} {s t : State} (h : run n s = .next t) : run (n + 1) s = step t := by
  rw [run_add 1 h, run_one]

theorem run_inputs_clock {n : Nat} {s t : State} (h : run n s = .next t) :
    t.inputs = s.inputs.drop n ∧ t.clock = s.clock + n := by
  induction n generalizing s with
  | zero => cases h; simp
  | succ n ih =>
    obtain ⟨u, hu⟩ := tickWith_total (currentInput s) s
    rw [run_succ n hu] at h
    obtain ⟨hi, hc⟩ := ih h
    obtain ⟨hi', hc'⟩ := step_inputs_clock hu
    exact ⟨by simp [hi, hi'], by omega⟩

theorem currentInput_eq (s : State) : currentInput s = inputAfter s 0 := by
  cases h : s.inputs <;> simp [currentInput, inputAfter, h]

/-- The input a run meets at its `n`-th step is the one read off its first state. -/
theorem currentInput_of_run {n : Nat} {s t : State} (h : run n s = .next t) : currentInput t = inputAfter s n := by
  obtain ⟨hi, hc⟩ := run_inputs_clock h
  simp [currentInput_eq, inputAfter, hi, hc]

theorem inputAfter_of_run {n : Nat} {s t : State} (h : run n s = .next t) (j : Nat) :
    inputAfter t j = inputAfter s (n + j) := by
  obtain ⟨hi, hc⟩ := run_inputs_clock h
  simp [inputAfter, hi, hc, Nat.add_assoc]

/-- Where the inputs drive the line to a waveform, DET follows it. -/
theorem lineShows_of_inputs {l : Nat → Level} {n : Nat} {s : State}
    (h : ∀ j < n, (inputAfter s j).det = .level (l j)) : LineShows l n s := by
  intro j hj u hu
  rw [detOf, currentInput_of_run hu, h j hj, detLevel_level]

end Sys2Proof.Machine
end

