-- ==== Sys2Proof/Tests/Slice0.lean ====
section
/-! SUPPORT. The model's own tests, each one step or one decoding with a result taken from the spec, and for each statement
with hypotheses a state and operands that meet them. -/

namespace Sys2Proof.Machine.Tests

/-! ## Well-formedness and decoding -/

/-- 42_sequencer.md R125: SEQ of no bytes is ill-formed. -/
theorem test_empty_seq_is_ill_formed : (Instr.seq []).wellFormed = false := by decide

/-- 42_sequencer.md R125: SEQ of one byte is well-formed; R132: WRITE of none is. -/
theorem test_seq_and_empty_write_are_well_formed :
    (Instr.seq [0x00#8]).wellFormed = true ∧ (Instr.write []).wellFormed = true := by decide

/-- 30_encoding.md R70, R72: 0x48 is sent as 0, then 0 0 0 1 0 0 1 0, then 1. -/
theorem test_frame_of_0x48 : frameWord 0x48#8 = 0b0000100101#10 := by decide

/-- 30_encoding.md R70: 0x69 is 0110 1001, least significant bit first 1 0 0 1 0 1 1 0. -/
theorem test_frame_of_0x69 : frameWord 0x69#8 = 0b0100101101#10 := by decide

/-- 30_encoding.md R70: the frame on the detector line is DECODE's, with d_3 and d_6 set. -/
theorem test_detector_frame_decodes : decodeForm (.frame10 .detector 0b0000100101#10) = .ok (.decode 0x48#8) := by decide

/-- 30_encoding.md R80: the stop symbol is not looked at. -/
theorem test_detector_frame_without_stop_decodes :
    decodeForm (.frame10 .detector 0b0000100100#10) = .ok (.decode 0x48#8) := by decide

/-- 40_decode.md R90: without a LOW there is no edge. -/
theorem test_no_falling_edge_is_rejected : decodeForm (.frame10 .detector 0b1000100101#10) = .error .noFallingEdge := by decide

/-- 41_encode.md R111 to R113: an emitted frame starts LOW and stops HIGH. -/
theorem test_emitter_frame_decodes : decodeForm (.frame10 .emitter 0b0100101101#10) = .ok (.encode 0x69#8) := by decide

theorem test_emitter_frame_without_stop_is_rejected :
    decodeForm (.frame10 .emitter 0b0000100100#10) = .error .notAFrame := by decide

/-- 42_sequencer.md R136: "Hi" is the train of the frames of 0x48 and 0x69. -/
theorem test_train_of_hi_decodes :
    decodeForm (.frameTrain [0b0000100101#10, 0b0100101101#10]) = .ok (.seq [0x48#8, 0x69#8]) := by decide

theorem test_empty_train_is_rejected : decodeForm (.frameTrain []) = .error .emptyTrain := by decide

/-- The rows of spec/opcode_table.json whose encoding is empty. -/
theorem test_forms_without_bits_decode :
    decodeForm .internal = .ok .publish ∧ decodeForm .endpointRead = .ok .read
      ∧ decodeForm (.endpointWrite [0x0A#8]) = .ok (.write [0x0A#8]) ∧ decodeForm .pin = .ok .reset := by decide

/-- The pattern 0abcdefgh1 of spec/opcode_table.json as a number; too wide a number and a width of no frame read as none. -/
theorem test_table_word :
    decodeTableWord 16 0b0000100101 = some (.decode 0x48#8) ∧ decodeTableWord 16 0b10000100101 = none
      ∧ decodeTableWord 0 0 = none := by decide

/-! ## States -/

/-- The reset state with RXREG_RESET = 0x5A, as the vectors of 95_test_vectors.md use it. -/
def base : State := { State.reset with rx := Receive.reset 0x5A#8 }

/-- A receiver ready for a start edge. -/
def ready (inputs : List Input) : State := { base with rx := { base.rx with detPrev := .high }, inputs := inputs }

/-- A receiver in flight at K = 1. -/
def inFlight (phase : RxPhase) (bit : Fin 8) (cnt : Nat) (acc : Byte) (det : Level) : State :=
  { base with
    rx := { base.rx with phase := phase, bit := bit, cnt := cnt, acc := acc, armed := false, detPrev := .low }
    inputs := [{ quietInput with det := .level det }] }

/-- A transmitter at work on "Hi", on its byte `idx`. -/
def sending (phase : TxPhase) (bit : Fin 8) (cnt : Nat) (cur : Byte) (idx : Nat) (emit : Level) : State :=
  { base with
    tx := { emit := emit, phase := phase, bit := bit, cnt := cnt, cur := cur, buf := [0x48#8, 0x69#8], idx := idx }
    inputs := [quietInput] }

/-- An idle block to which `buf` is offered, the detector seeing the emitter, and then `n` quiet ticks in loopback. -/
def offering (buf : List Byte) (n : Nat) : State :=
  { base with
    inputs := { quietInput with det := .loopback, wr := some buf } :: List.replicate n { quietInput with det := .loopback } }

/-- A test of the state a step answers. -/
def after (o : Host.Outcome State Fault Refusal) (p : State → Bool) : Bool :=
  match o with
  | .next t => p t
  | .fault _ => false
  | .refused _ => false

/-! ## One step of each operation -/

/-- 10_state.md R44 and the fetch of a frame: the step after the frame of 0x48 is placed enters the decode, with 9 ticks to
settle at K = 1. -/
theorem test_fetched_frame_enters_decode :
    after (step (State.reset.withFetchWord 16 0b0000100101)) (fun t =>
      decide (t.rx.phase = .settle ∧ t.rx.cnt = 9 ∧ t.rx.armed = false ∧ t.log = [(0, .event .rxStart)])) = true := by decide

/-- 95_test_vectors.md V-D1, tick 28: s_3 is HIGH and RX_ACC goes from 0x00 to 0x08. -/
theorem test_decode_sample_3 :
    after (step (inFlight .wait 2 1 0x00#8 .high)) (fun t =>
      decide (t.rx.acc = 0x08#8 ∧ t.rx.bit = 3 ∧ t.rx.cnt = 6 ∧ t.rx.reg = 0x5A#8)) = true := by decide

/-- 95_test_vectors.md V-D1, tick 58: RXREG goes from 0x5A to 0x48 and RX_DONE(0x48) is emitted. -/
theorem test_publish :
    after (step (inFlight .wait 7 1 0x48#8 .high)) (fun t =>
      decide (t.rx.reg = 0x48#8 ∧ t.rx.armed = true ∧ t.rx.phase = .idle ∧ t.log = [(0, .event (.rxDone 0x48#8))])) = true := by
  decide

/-- 60_exceptions.md R173: an edge in the tick of PUBLISH is lost. -/
theorem test_edge_in_publish_tick_is_lost :
    after (step (inFlight .wait 7 1 0x48#8 .low)) (fun t => decide (t.rx.phase = .idle ∧ t.rx.detPrev = .low)) = true := by
  decide

/-- 95_test_vectors.md V-E1: d_3 of 0x48 is HIGH, after d_2 which is LOW. -/
theorem test_encode_data_3 :
    after (step (sending .data 2 1 0x48#8 0 .low)) (fun t =>
      decide (t.tx.emit = .high ∧ t.tx.phase = .data ∧ t.tx.bit = 3 ∧ t.tx.cnt = 6)) = true := by decide

/-- 41_encode.md R113: after d_7 the line goes HIGH for the stop symbol. -/
theorem test_encode_stop :
    after (step (sending .data 7 1 0x48#8 0 .low)) (fun t => decide (t.tx.emit = .high ∧ t.tx.phase = .stop)) = true := by
  decide

/-- 42_sequencer.md R136: TX_SENT(0x48) at the end of its frame, then 200 ticks of cooldown. -/
theorem test_seq_logs_and_cools :
    after (step (sending .stop 7 1 0x48#8 0 .high)) (fun t =>
      decide (t.tx.phase = .cool ∧ t.tx.cnt = 200 ∧ t.tx.emit = .high ∧ t.log = [(0, .event (.txSent 0x48#8))])) = true := by
  decide

/-- 90_conflicts.md C12: the byte after 0x48 in "Hi" is 0x69; after it WR_DONE(2). -/
theorem test_seq_next_byte_and_completion :
    after (step (sending .cool 7 1 0x48#8 0 .high)) (fun t =>
      decide (t.tx.phase = .start ∧ t.tx.cur = 0x69#8 ∧ t.tx.idx = 1 ∧ t.tx.emit = .low)) = true
    ∧ after (step (sending .cool 7 1 0x69#8 1 .high)) (fun t =>
      decide (t.tx.phase = .idle ∧ t.log = [(0, .event (.wrDone 2))])) = true := by decide

/-- 20_memory.md R58: two READs in the tick of a PUBLISH return the old byte. -/
theorem test_reads_in_publish_tick :
    after (step { inFlight .wait 7 1 0x48#8 .high with inputs := [{ quietInput with readers := 2 }] }) (fun t =>
      decide (t.log = [(0, .event (.rxDone 0x48#8)), (0, .readData 0x5A#8), (0, .readData 0x5A#8)])) = true := by decide

/-- 42_sequencer.md R136: "Hi" accepted, the line LOW in the next tick. -/
theorem test_write_accepted :
    after (step (offering [0x48#8, 0x69#8] 0)) (fun t =>
      decide (t.tx.phase = .start ∧ t.tx.emit = .low ∧ t.tx.cnt = 6 ∧ t.tx.buf = [0x48#8, 0x69#8] ∧ t.tx.cur = 0x48#8)) = true := by
  decide

/-- 95_test_vectors.md V-S1 and V-S4: an empty write completes at once; a write offered in the WR_DONE tick is not taken. -/
theorem test_write_empty_and_busy :
    after (step (offering [] 0)) (fun t => decide (t.tx.phase = .idle ∧ t.log = [(0, .event (.wrDone 0))])) = true
    ∧ after (step { sending .cool 7 1 0x69#8 1 .high with inputs := [{ quietInput with wr := some [0x01#8] }] }) (fun t =>
      decide (t.tx.phase = .idle ∧ t.tx.buf = [0x48#8, 0x69#8])) = true := by decide

/-- 70_reset_and_hazards.md R192: a reset in the middle of a frame drives EMIT HIGH, with no event. -/
theorem test_reset_mid_frame :
    after (step { sending .data 2 4 0x48#8 0 .low with inputs := [{ quietInput with rst := true }] }) (fun t =>
      decide (t.tx.emit = .high ∧ t.tx.phase = .idle ∧ t.tx.buf = [] ∧ t.rx.armed = true ∧ t.log = [])) = true := by decide

/-! ## Witnesses: states and operands that meet the hypotheses of the statements -/

/-- A state in which RST is 1, at tick 0 and at a later tick. -/
def resetting (tick : Nat) : State := { base with inputs := [{ quietInput with rst := true }], tick := tick }

/-- One quiet tick after reset. -/
theorem witness_ResetStateHoldsTheSpecsValues :
    ∃ t, run 1 { State.reset with inputs := [quietInput] } = .next t
      ∧ ∀ j < 1, ∀ u, run j { State.reset with inputs := [quietInput] } = .next u →
        (currentInput u).rst = false ∧ Instr.publish ∉ selected (currentInput u) u := by
  refine ⟨_, rfl, fun j hj u hu => ?_⟩
  obtain rfl : j = 0 := by omega
  cases hu
  decide

theorem witness_ResetTickWinsOverEverything : (currentInput (resetting 3)).rst = true := by decide

theorem witness_HeldResetKeepsTheDrawnByte :
    ((currentInput (resetting 0)).rst = true ∧ (resetting 0).tick = 0)
      ∧ (currentInput (resetting 1)).rst = true ∧ (resetting 1).tick ≠ 0 := by decide

/-- The start edge is the start symbol of the frame of 0x48 (95_test_vectors.md V-D1). -/
def receiving : State := ready (frameInputs 1 0x48#8 0 10)

theorem receiving_noReset : NoResetFor 58 receiving := by unfold NoResetFor; decide

theorem receiving_line : LineShows (fun j => frameSymbol 0x48#8 (j / 6)) 57 receiving :=
  lineShows_of_inputs (by decide)

theorem noReset_mono {m n : Nat} {s : State} (h : NoResetFor m s) (hn : n ≤ m) : NoResetFor n s :=
  fun j hj => h j (Nat.lt_of_lt_of_le hj hn)

theorem witness_DecodeEntryDisarmsAndStartsTheSettleWait :
    receiving.rx.phase = .idle ∧ receiving.rx.armed = true ∧ receiving.rx.detPrev = .high := by decide

/-- Both sides of the equivalence: an edge, and a line that stays HIGH. -/
theorem witness_DecodeStartsExactlyAtAFallingEdge :
    ((currentInput receiving).rst = false ∧ detOf (currentInput receiving) receiving = .low)
      ∧ (currentInput (ready [quietInput])).rst = false
      ∧ detOf (currentInput (ready [quietInput])) (ready [quietInput]) = .high ∧ Inv (ready [quietInput]) := by decide

/-- Each clause at the boundary of its count, and the first and the last pair of samples. -/
theorem witness_DecodeCountsDownOrTakesTheNextSample :
    ((inFlight .settle 0 2 0#8 .low).rx.phase = .settle ∧ 1 < (inFlight .settle 0 2 0#8 .low).rx.cnt)
      ∧ ((inFlight .wait 7 2 0#8 .low).rx.phase = .wait ∧ 1 < (inFlight .wait 7 2 0#8 .low).rx.cnt)
      ∧ ((inFlight .settle 0 1 0#8 .low).rx.phase = .settle ∧ (inFlight .settle 0 1 0#8 .low).rx.cnt ≤ 1)
      ∧ ((0 : Fin 8).val + 1 = (1 : Fin 8).val ∧ (inFlight .wait 0 1 0#8 .low).rx.bit = 0)
      ∧ ((6 : Fin 8).val + 1 = (7 : Fin 8).val ∧ (inFlight .wait 6 1 0#8 .low).rx.bit = 6
        ∧ (inFlight .wait 6 1 0#8 .low).rx.phase = .wait ∧ (inFlight .wait 6 1 0#8 .low).rx.cnt ≤ 1) := by decide

theorem witness_PublishWritesTheByteRearmsAndLogs :
    (inFlight .wait 7 1 0x48#8 .high).rx.phase = .wait ∧ (inFlight .wait 7 1 0x48#8 .high).rx.bit = 7
      ∧ (inFlight .wait 7 1 0x48#8 .high).rx.cnt = 1 := by decide

/-- The first and the last tick of the settle wait. -/
theorem witness_SettleWaitLastsNSettleTicks :
    0 < receiving.tickScale ∧ ReadyToReceive receiving ∧ detOf (currentInput receiving) receiving = .low
      ∧ NoResetFor (nSettle receiving.tickScale) receiving ∧ 1 ≤ 1 ∧ 9 ≤ nSettle receiving.tickScale :=
  ⟨by decide, by decide, by decide, noReset_mono receiving_noReset (by decide), by decide, by decide⟩

theorem witness_SamplesAreTakenAtTheirTicks :
    0 < receiving.tickScale ∧ ReadyToReceive receiving ∧ frameSymbol 0x48#8 (0 / 6) = .low
      ∧ LineShows (fun j => frameSymbol 0x48#8 (j / 6)) (decodeTicks receiving.tickScale) receiving
      ∧ NoResetFor (decodeTicks receiving.tickScale) receiving :=
  ⟨by decide, by decide, by decide, receiving_line, noReset_mono receiving_noReset (by decide)⟩

theorem witness_DecodePublishesTheEightSampledLevels :
    0 < receiving.tickScale ∧ ReadyToReceive receiving ∧ frameSymbol 0x48#8 (0 / 6) = .low
      ∧ LineShows (fun j => frameSymbol 0x48#8 (j / 6)) (decodeTicks receiving.tickScale) receiving
      ∧ NoResetFor (decodeTicks receiving.tickScale + 1) receiving :=
  ⟨by decide, by decide, by decide, receiving_line, receiving_noReset⟩

theorem witness_EdgesDuringADecodeAreLost :
    0 < receiving.tickScale ∧ ReadyToReceive receiving ∧ detOf (currentInput receiving) receiving = .low
      ∧ NoResetFor (decodeTicks receiving.tickScale + 1) receiving :=
  ⟨by decide, by decide, by decide, receiving_noReset⟩

/-- 18/19 lies in the band (95_test_vectors.md V-D7): K = 3, a sender whose symbols last 19 ticks. -/
def drifting : State :=
  { ready ((List.range 190).map fun j => { quietInput with det := .level (frameSymbol 0x7F#8 (j / 19)) }) with tickScale := 3 }

theorem drifting_input (j : Nat) (h : j < 190) :
    inputAfter drifting j = { quietInput with det := .level (frameSymbol 0x7F#8 (j / 19)) } := by
  simp [inputAfter, drifting, ready, h]

theorem witness_ClockDriftInsideTheBandDecodesRight :
    0 < drifting.tickScale ∧ ReadyToReceive drifting
      ∧ 16 * 19 ≤ 17 * nUnit drifting.tickScale ∧ 17 * nUnit drifting.tickScale < 18 * 19
      ∧ LineShows (fun j => frameSymbol 0x7F#8 (j / 19)) (decodeTicks drifting.tickScale) drifting
      ∧ NoResetFor (decodeTicks drifting.tickScale + 1) drifting := by
  refine ⟨by decide, by decide, by decide, by decide, lineShows_of_inputs fun j hj => ?_, fun j hj => ?_⟩
  · have hj' : j < 171 := hj
    rw [drifting_input j (by omega)]
  · have hj' : j < 172 := hj
    rw [drifting_input j (by omega)]
    rfl

/-- A dark line, dark before too. -/
def dark : State := { base with inputs := List.replicate 5 { quietInput with det := .level .low } }

theorem witness_NoDecodeWhileTheLineStaysDark :
    dark.rx.phase = .idle ∧ dark.rx.detPrev = .low ∧ LineShows (fun _ => .low) 5 dark ∧ NoResetFor 5 dark :=
  ⟨by decide, by decide, lineShows_of_inputs (by decide), by unfold NoResetFor; decide⟩

theorem witness_DetPrevTracksTheLineAtEveryTick : (currentInput dark).rst = false := by decide

/-- A PUBLISH that changes RXREG. -/
theorem witness_OnlyPublishOrResetChangesTheReceiveRegister :
    ∃ t, step (inFlight .wait 7 1 0x48#8 .high) = .next t ∧ t.rx.reg ≠ (inFlight .wait 7 1 0x48#8 .high).rx.reg :=
  ⟨_, rfl, by decide⟩

/-- A PUBLISH that changes RX_ARMED, and a masked interrupt. -/
theorem witness_OnlyEntryPublishAndResetChangeTheInterruptEnable :
    ∃ t, step (inFlight .wait 7 1 0x48#8 .high) = .next t ∧ (inFlight .wait 7 1 0x48#8 .high).rx.armed = false
      ∧ t.rx.armed ≠ (inFlight .wait 7 1 0x48#8 .high).rx.armed :=
  ⟨_, rfl, by decide, by decide⟩

/-- A PUBLISH with DET HIGH, and then DET LOW. -/
def publishThenFall : State :=
  { inFlight .wait 7 1 0x48#8 .high with inputs := [quietInput, { quietInput with det := .level .low }] }

theorem witness_EdgeOneTickAfterPublishStartsADecode :
    ∃ u, publishDue publishThenFall.rx = true ∧ NoResetFor 2 publishThenFall ∧ step publishThenFall = .next u
      ∧ detOf (currentInput publishThenFall) publishThenFall = .high ∧ detOf (currentInput u) u = .low :=
  ⟨_, by decide, by unfold NoResetFor; decide, rfl, by decide, by decide⟩

theorem witness_FrameOfTheReceiveOperations : publishDue (inFlight .wait 6 1 0#8 .low).rx = false := by decide

/-- Each clause at the boundary of its count, and the first and the last pair of data symbols. -/
theorem witness_EncodeHoldsOrDrivesTheNextSymbol :
    ((sending .stop 7 2 0x48#8 0 .high).tx.phase = .stop ∧ 1 < (sending .stop 7 2 0x48#8 0 .high).tx.cnt)
      ∧ ((sending .start 0 1 0x48#8 0 .low).tx.phase = .start ∧ (sending .start 0 1 0x48#8 0 .low).tx.cnt ≤ 1)
      ∧ ((0 : Fin 8).val + 1 = (1 : Fin 8).val ∧ (sending .data 0 1 0x48#8 0 .low).tx.bit = 0)
      ∧ ((6 : Fin 8).val + 1 = (7 : Fin 8).val ∧ (sending .data 6 1 0x48#8 0 .high).tx.bit = 6
        ∧ (sending .data 6 1 0x48#8 0 .high).tx.phase = .data ∧ (sending .data 6 1 0x48#8 0 .high).tx.cnt ≤ 1)
      ∧ ((sending .data 7 1 0x48#8 0 .low).tx.phase = .data ∧ (sending .data 7 1 0x48#8 0 .low).tx.bit = 7) := by decide

theorem witness_SeqLogsTheByteSentAndStartsTheCooldown :
    (sending .stop 7 1 0x48#8 0 .high).tx.phase = .stop ∧ (sending .stop 7 1 0x48#8 0 .high).tx.cnt ≤ 1 := by decide

/-- The hold, the next byte at the last index that has one, and the end after the last byte. -/
theorem witness_SeqCoolsDownThenSendsTheNextByteOrCompletes :
    ((sending .cool 7 2 0x48#8 0 .high).tx.phase = .cool ∧ 1 < (sending .cool 7 2 0x48#8 0 .high).tx.cnt)
      ∧ ((sending .cool 7 1 0x48#8 0 .high).tx.cnt ≤ 1 ∧ [0x48#8, 0x69#8][(sending .cool 7 1 0x48#8 0 .high).tx.idx + 1]? = some 0x69#8)
      ∧ ((sending .cool 7 1 0x69#8 1 .high).tx.cnt ≤ 1 ∧ [0x48#8, 0x69#8].length ≤ (sending .cool 7 1 0x69#8 1 .high).tx.idx + 1) := by
  decide

theorem offering_input (buf : List Byte) (n j : Nat) (h : j < n + 1) :
    (inputAfter (offering buf n) j).rst = false ∧ (inputAfter (offering buf n) j).det = .loopback := by
  cases j with
  | zero => exact ⟨rfl, rfl⟩
  | succ j =>
    have hj : j < n := by omega
    simp [inputAfter, offering, hj, quietInput]

theorem offering_noReset (buf : List Byte) (n m : Nat) (h : m ≤ n + 1) : NoResetFor m (offering buf n) :=
  fun j hj => (offering_input buf n j (by omega)).1

/-- A write that begins a frame, and 60 ticks for it. -/
theorem witness_EncodeDrivesTheTenSymbolsOfTheFrame :
    ∃ u, Inv (offering [0x48#8] 60) ∧ (offering [0x48#8] 60).tx.phase ≠ .start ∧ step (offering [0x48#8] 60) = .next u
      ∧ u.tx.phase = .start ∧ NoResetFor (10 * nUnit u.tickScale) u := by
  refine ⟨_, by decide, by decide, rfl, by decide, ?_⟩
  unfold NoResetFor
  decide

theorem witness_WriteSendsEveryByteInOrderThenCompletes :
    Inv (offering [0x48#8] 260) ∧ (offering [0x48#8] 260).tx.phase = .idle
      ∧ (currentInput (offering [0x48#8] 260)).wr = some [0x48#8] ∧ [0x48#8] ≠ ([] : List Byte)
      ∧ NoResetFor ([0x48#8].length * bytePeriod (offering [0x48#8] 260).tickScale + 1) (offering [0x48#8] 260) :=
  ⟨by decide, by decide, by decide, by decide, offering_noReset _ _ _ (by decide)⟩

theorem witness_ReadsInThePublishTickReturnTheOldByte :
    (currentInput (inFlight .wait 7 1 0x48#8 .high)).rst = false ∧ publishDue (inFlight .wait 7 1 0x48#8 .high).rx = true := by
  decide

/-- One quiet step without a PUBLISH and without a reset. -/
theorem witness_RepeatedReadsReturnTheSameByte :
    ∃ t, run 1 (ready [quietInput]) = .next t ∧ ∀ j < 1, ∀ u, run j (ready [quietInput]) = .next u →
      (currentInput u).rst = false ∧ Instr.publish ∉ selected (currentInput u) u := by
  refine ⟨_, rfl, fun j hj u hu => ?_⟩
  obtain rfl : j = 0 := by omega
  cases hu
  decide

theorem witness_AcceptedWriteCopiesTheBufferAndStartsItsFirstFrame : base.tx.phase = .idle := by decide

theorem witness_EmptyWriteCompletesInTheSameStep : (offering [] 0).tx.phase = .idle := by decide

/-- Accepted and not accepted. -/
theorem witness_WriteIsAcceptedExactlyWhenTheTransmitterIsIdle :
    (currentInput (offering [0x48#8] 0)).rst = false ∧ (currentInput (offering [0x48#8] 0)).wr = some [0x48#8]
      ∧ (offering [0x48#8] 0).tx.phase = .idle ∧ [0x48#8] ≠ ([] : List Byte)
      ∧ (sending .cool 7 1 0x69#8 1 .high).tx.phase ≠ .idle := by decide

theorem witness_StepRunsTheSelectedOperations :
    (currentInput (resetting 3)).rst = true ∧ (currentInput (ready [quietInput])).rst = false := by decide

theorem witness_StepRunsThePresentedOperation : 0 < State.reset.tickScale := by decide

theorem witness_OperationsAreSelectedOnTheirConditions :
    Inv (sending .stop 7 1 0x48#8 0 .high) ∧ quietInput.rst = false := by decide

/-- Each clause: no enable, no HIGH before; a sample still to come; the idle and the ended transmitter. -/
theorem witness_OperationsNotSelectedDoNothing :
    (dark.rx.phase = .idle ∧ dark.rx.detPrev = .low)
      ∧ ({ base.rx with armed := false } : Receive).armed = false
      ∧ (inFlight .wait 6 1 0#8 .low).rx.bit ≠ 7 ∧ 1 < (inFlight .wait 7 2 0#8 .low).rx.cnt
      ∧ ((sending .stop 7 1 0x48#8 0 .high).tx.phase = .stop ∧ (sending .stop 7 1 0x48#8 0 .high).tx.cnt ≤ 1)
      ∧ ((sending .stop 7 2 0x48#8 0 .high).tx.phase = .stop ∧ 1 < (sending .stop 7 2 0x48#8 0 .high).tx.cnt) := by decide

theorem witness_OutputsAreFunctionsOfTheState : Inv base ∧ Inv (sending .data 3 6 0x48#8 0 .high) :=
  ⟨by decide, by decide⟩

theorem witness_OutputsAreFunctionsOfTheState_accepted :
    (currentInput (offering [0x48#8] 0)).rst = false ∧ (currentInput (offering [0x48#8] 0)).wr = some [0x48#8] := by decide

/-- `sending`, with other receive elements and DET LOW. -/
def sendingInTheDark : State :=
  { sending .stop 7 1 0x48#8 0 .high with
    rx := (inFlight .wait 7 1 0x48#8 .low).rx, inputs := [{ quietInput with det := .level .low }] }

theorem witness_TransmitDoesNotDependOnReceive :
    ∃ t t', (sending .stop 7 1 0x48#8 0 .high).tickScale = sendingInTheDark.tickScale
      ∧ (sending .stop 7 1 0x48#8 0 .high).tx = sendingInTheDark.tx
      ∧ (sending .stop 7 1 0x48#8 0 .high).clock = sendingInTheDark.clock
      ∧ (currentInput (sending .stop 7 1 0x48#8 0 .high)).wr = (currentInput sendingInTheDark).wr
      ∧ (currentInput (sending .stop 7 1 0x48#8 0 .high)).rst = (currentInput sendingInTheDark).rst
      ∧ transmitEvents (sending .stop 7 1 0x48#8 0 .high).log = transmitEvents sendingInTheDark.log
      ∧ step (sending .stop 7 1 0x48#8 0 .high) = .next t ∧ step sendingInTheDark = .next t' ∧ t.rx ≠ t'.rx :=
  ⟨_, _, by decide, by decide, by decide, by decide, by decide, by decide, rfl, rfl, by decide⟩

/-- An idle transmitter to which a write is offered, the receive elements those of `sending`. -/
def offered : State := { base with inputs := [{ quietInput with wr := some [0x01#8] }] }

theorem witness_ReceiveDoesNotDependOnTransmit :
    ∃ t t', (sending .stop 7 1 0x48#8 0 .high).tickScale = offered.tickScale
      ∧ (sending .stop 7 1 0x48#8 0 .high).rx = offered.rx ∧ (sending .stop 7 1 0x48#8 0 .high).clock = offered.clock
      ∧ detOf (currentInput (sending .stop 7 1 0x48#8 0 .high)) (sending .stop 7 1 0x48#8 0 .high)
        = detOf (currentInput offered) offered
      ∧ (currentInput (sending .stop 7 1 0x48#8 0 .high)).rst = false ∧ (currentInput offered).rst = false
      ∧ receiveEvents (sending .stop 7 1 0x48#8 0 .high).log = receiveEvents offered.log
      ∧ step (sending .stop 7 1 0x48#8 0 .high) = .next t ∧ step offered = .next t' ∧ t.tx ≠ t'.tx :=
  ⟨_, _, by decide, by decide, by decide, by decide, by decide, by decide, by decide, rfl, rfl, by decide⟩

/-- A state inside a frame, and its next state. -/
theorem witness_EveryStepKeepsTheInvariant :
    ∃ t, Inv (sending .data 3 1 0x48#8 0 .high) ∧ step (sending .data 3 1 0x48#8 0 .high) = .next t :=
  ⟨_, by decide, rfl⟩

theorem witness_DecodingAnEncodedOperationGivesItBack : (Instr.seq [0x48#8, 0x69#8]).wellFormed = true := by decide

theorem witness_LoopbackReceivesTheByteWritten :
    Inv (offering [0x48#8] 60) ∧ Quiescent (offering [0x48#8] 60)
      ∧ (currentInput (offering [0x48#8] 60)).wr = some [0x48#8]
      ∧ LoopbackFor (decodeTicks (offering [0x48#8] 60).tickScale + 2) (offering [0x48#8] 60)
      ∧ NoResetFor (decodeTicks (offering [0x48#8] 60).tickScale + 2) (offering [0x48#8] 60) :=
  ⟨by decide, by decide, by decide,
    fun j hj => (offering_input _ 60 j (by have h : j < 59 := hj; omega)).2, offering_noReset _ _ _ (by decide)⟩

/-- The receiving end is sending a frame of its own. -/
theorem witness_MatchedLinkDeliversTheByteWritten :
    Inv (offering [0x48#8] 60) ∧ Inv { offering [] 60 with tx := (sending .data 3 1 0x48#8 0 .high).tx }
      ∧ (offering [0x48#8] 60).tx.phase = .idle ∧ (offering [] 60).rx.phase = .idle
      ∧ (currentInput (offering [0x48#8] 60)).wr = some [0x48#8]
      ∧ NoResetFor (decodeTicks 1 + 2) (offering [0x48#8] 60)
      ∧ NoResetFor (decodeTicks 1 + 2) { offering [] 60 with tx := (sending .data 3 1 0x48#8 0 .high).tx } :=
  ⟨by decide, by decide, by decide, by decide, by decide, offering_noReset _ _ _ (by decide),
    offering_noReset [] 60 _ (by decide)⟩

end Sys2Proof.Machine.Tests
end

/-! ## Proofs: the state and its outputs (10_state.md) -/

namespace Sys2Proof.Machine

/-! The three parts of a tick outside reset, in their order (20_memory.md R58, 44_block_step.md R157). -/

/-- The state after `n` READs of RXREG. -/
def State.afterReads (n : Nat) (s : State) : State :=
  { s with log := List.replicate n (s.clock, .readData s.rx.reg) ++ s.log }

/-- The state after the transmit engine's part of a tick. -/
def State.afterTransmit (wr : Option (List Byte)) (s : State) : State :=
  (s.setTx (txStep s.tickScale wr s.tx).1).emitAll (txStep s.tickScale wr s.tx).2

/-- The state after the receive engine's part of a tick. -/
def State.afterReceive (det : Level) (s : State) : State :=
  (s.setRx (decodeTick s.tickScale det s.rx).1).emitAll (decodeTick s.tickScale det s.rx).2

section
variable (n : Nat) (wr : Option (List Byte)) (det : Level) (s : State)

@[simp] theorem State.afterReads_tickScale : (s.afterReads n).tickScale = s.tickScale := rfl
@[simp] theorem State.afterReads_rx : (s.afterReads n).rx = s.rx := rfl
@[simp] theorem State.afterReads_tx : (s.afterReads n).tx = s.tx := rfl
@[simp] theorem State.afterReads_clock : (s.afterReads n).clock = s.clock := rfl
@[simp] theorem State.afterReads_log :
    (s.afterReads n).log = List.replicate n (s.clock, .readData s.rx.reg) ++ s.log := rfl

@[simp] theorem State.afterTransmit_tickScale : (s.afterTransmit wr).tickScale = s.tickScale := by simp [afterTransmit]
@[simp] theorem State.afterTransmit_rx : (s.afterTransmit wr).rx = s.rx := by simp [afterTransmit]
@[simp] theorem State.afterTransmit_tx : (s.afterTransmit wr).tx = (txStep s.tickScale wr s.tx).1 := by
  simp [afterTransmit]
@[simp] theorem State.afterTransmit_clock : (s.afterTransmit wr).clock = s.clock := by simp [afterTransmit]
@[simp] theorem State.afterTransmit_log : (s.afterTransmit wr).log
    = ((txStep s.tickScale wr s.tx).2.map fun e => (s.clock, Observation.event e)).reverse ++ s.log := by
  simp [afterTransmit]

@[simp] theorem State.afterReceive_tickScale : (s.afterReceive det).tickScale = s.tickScale := by simp [afterReceive]
@[simp] theorem State.afterReceive_rx : (s.afterReceive det).rx = (decodeTick s.tickScale det s.rx).1 := by
  simp [afterReceive]
@[simp] theorem State.afterReceive_tx : (s.afterReceive det).tx = s.tx := by simp [afterReceive]
@[simp] theorem State.afterReceive_clock : (s.afterReceive det).clock = s.clock := by simp [afterReceive]
@[simp] theorem State.afterReceive_log : (s.afterReceive det).log
    = ((decodeTick s.tickScale det s.rx).2.map fun e => (s.clock, Observation.event e)).reverse ++ s.log := by
  simp [afterReceive]

end

theorem selected_of_noReset {inp : Input} (s : State) (hr : inp.rst = false) :
    selected inp s
      = List.replicate inp.readers .read ++ (selectTransmit inp.wr s.tx ++ selectReceive (detOf inp s) s.rx) := by
  simp [selected, hr]

/-- The operations of a tick outside reset are its three parts, each seeing the elements the tick began with. -/
theorem runAll_selected_of_noReset {inp : Input} (s : State) (hr : inp.rst = false) :
    runAll (selected inp s) s
      = .next (((s.afterReads inp.readers).afterTransmit inp.wr).afterReceive (detOf inp s)) := by
  have htx : runAll (selectTransmit inp.wr s.tx) (s.afterReads inp.readers)
      = .next ((s.afterReads inp.readers).afterTransmit inp.wr) := runAll_selectTransmit _ (s.afterReads inp.readers)
  have hrx := runAll_selectReceive (detOf inp s) ((s.afterReads inp.readers).afterTransmit inp.wr)
  rw [State.afterTransmit_rx, State.afterReads_rx] at hrx
  rw [selected_of_noReset s hr, runAll_reads, runAll_append, ← State.afterReads, htx]
  simpa [State.afterReceive] using hrx

/-- Outside reset a tick is its three parts and the end of the tick. -/
theorem step_of_noReset {s : State} (hr : (currentInput s).rst = false) :
    step s = .next (endTick (currentInput s) s
      (((s.afterReads (currentInput s).readers).afterTransmit (currentInput s).wr).afterReceive
        (detOf (currentInput s) s))) :=
  tickWith_eq (runAll_selected_of_noReset s hr)

/-- Outside reset a step is RxStep on the receive elements (40_decode.md R98). -/
theorem step_rx_of_noReset {s t : State} (hr : (currentInput s).rst = false) (h : step s = .next t) :
    t.rx = (rxStep s.tickScale (detOf (currentInput s) s) s.rx).1 := by
  rw [step_of_noReset hr] at h
  cases h
  simp [endTick_rx _ _ _ hr, rxStep_eq]

@[simp] theorem rxStep_detPrev (k : Nat) (det : Level) (rx : Receive) : (rxStep k det rx).1.detPrev = det := by
  simp [rxStep_eq]

/-- RXREG changes at a PUBLISH alone. -/
theorem rxStep_reg_of_not_publishDue (k : Nat) (det : Level) {rx : Receive} (hp : ¬ publishDue rx = true) :
    (rxStep k det rx).1.reg = rx.reg := by
  rw [rxStep_eq]
  rcases decodeTick_cases k det rx with ⟨-, -, h⟩ | ⟨-, -, h⟩ | ⟨-, -, h⟩ | ⟨-, -, h⟩ | ⟨-, -, _, h⟩ | ⟨hdue, -⟩
  pick_goal 6
  · exact absurd hdue hp
  all_goals simp [h]

/-! Which operations a tick selects. -/

theorem mem_selectReceive (i : Instr) (det : Level) (rx : Receive) :
    i ∈ selectReceive det rx ↔ (i = .publish ∧ publishDue rx = true)
      ∨ (i = .decode (lineHeld det) ∧ publishDue rx = false ∧ (rx.phase = .idle → edge rx det = true)) := by
  cases hp : publishDue rx with
  | true => simp [selectReceive, hp]
  | false => by_cases hi : rx.phase = .idle <;> cases he : edge rx det <;> simp [selectReceive, hp, hi, he]

theorem publish_mem_selected_of_due {inp : Input} {s : State} (hr : inp.rst = false) (hp : publishDue s.rx = true) :
    Instr.publish ∈ selected inp s := by
  simp [selected_of_noReset s hr, mem_selectReceive, hp]

theorem wrReady_iff (tx : Transmit) : wrReady tx = true ↔ tx.phase = .idle := by simp [wrReady]

theorem rxBusy_iff (rx : Receive) : rxBusy rx = true ↔ rx.phase ≠ .idle := by simp [rxBusy]

theorem write_mem_selectTransmit (buf : List Byte) (tx : Transmit) :
    Instr.write buf ∈ selectTransmit (some buf) tx ↔ tx.phase = .idle := by
  cases hp : tx.phase with
  | stop => by_cases hc : 1 < tx.cnt <;> simp [selectTransmit, hp, hc]
  | _ => simp [selectTransmit, hp]

/-- An offered WRITE is accepted exactly where WR_READY is 1 (42_sequencer.md R133, R134). -/
theorem write_mem_selected {inp : Input} {buf : List Byte} (s : State) (hr : inp.rst = false) (hw : inp.wr = some buf) :
    Instr.write buf ∈ selected inp s ↔ wrReady s.tx = true := by
  simp [selected_of_noReset s hr, hw, write_mem_selectTransmit, mem_selectReceive, wrReady_iff]

/-- 10_state.md R45, as the two ports show it. -/
theorem rxBusy_eq_not_armed {k : Nat} {rx : Receive} (h : ReceiveInv k rx) : rxBusy rx = !rx.armed := by
  obtain ⟨harm, -⟩ := h
  cases ha : rx.armed with
  | true => simp [rxBusy, harm.1 ha]
  | false => simpa [rxBusy, ha] using harm

/-! RXREG along a run. -/

theorem step_keeps_reg {s t : State} (hr : (currentInput s).rst = false)
    (hp : Instr.publish ∉ selected (currentInput s) s) (h : step s = .next t) : t.rx.reg = s.rx.reg := by
  rw [step_rx_of_noReset hr h]
  exact rxStep_reg_of_not_publishDue _ _ (mt (publish_mem_selected_of_due hr) hp)

/-- A run without a reset tick and without a PUBLISH leaves RXREG as it was. -/
theorem run_keeps_reg {n : Nat} {s t : State} (h : run n s = .next t)
    (hq : ∀ j < n, ∀ u, run j s = .next u →
      (currentInput u).rst = false ∧ Instr.publish ∉ selected (currentInput u) u) : t.rx.reg = s.rx.reg := by
  induction n generalizing t with
  | zero => cases h; rfl
  | succ n ih =>
    obtain ⟨u, hu⟩ := run_total n s
    obtain ⟨hr, hp⟩ := hq n (Nat.lt_succ_self n) u hu
    have hstep : step u = .next t := by rw [← run_succ_right hu, h]
    calc t.rx.reg = u.rx.reg := step_keeps_reg hr hp hstep
      _ = s.rx.reg := ih hu fun j hj => hq j (Nat.lt_succ_of_lt hj)

/-! The statements. -/

/-- Settles O1: the elements are those of the reset state's definition, and along the run nothing writes RXREG. -/
theorem resetStateHoldsTheSpecsValues : Obligations.ResetStateHoldsTheSpecsValues := by
  refine ⟨rfl, rfl, fun inputs n t h hq => ?_⟩
  have hreg : t.rx.reg = Config.rxregReset 0 := run_keeps_reg h hq
  simp [exec, execRead, State.observe, hreg]

/-- Settles O14: outside reset a step is RxStep, which tracks DET in every phase. -/
theorem detPrevTracksTheLineAtEveryTick : Obligations.DetPrevTracksTheLineAtEveryTick := by
  intro s hr
  have h := step_of_noReset hr
  exact ⟨_, h, by rw [step_rx_of_noReset hr h, rxStep_detPrev]⟩

/-- Settles O37, port by port. -/
theorem outputsAreFunctionsOfTheState : Obligations.OutputsAreFunctionsOfTheState := by
  intro s
  refine ⟨rfl, rfl, wrReady_iff s.tx, rxBusy_iff s.rx, rfl, ?accepted, ?busy⟩
  case accepted => exact fun inp buf hr hw => write_mem_selected s hr hw
  case busy =>
    rintro ⟨-, hrx, -⟩
    exact rxBusy_eq_not_armed hrx

end Sys2Proof.Machine

/-! ## Proofs: DECODE, from its edge to PUBLISH (40_decode.md) -/

namespace Sys2Proof.Machine

/-! The receive engine's events of a log. -/

@[simp] theorem receiveEvents_append (log log' : List (Nat × Observation)) :
    receiveEvents (log ++ log') = receiveEvents log ++ receiveEvents log' := by
  simp [receiveEvents, eventsOf]

@[simp] theorem receiveEvents_reads (n c : Nat) (v : Byte) :
    receiveEvents (List.replicate n (c, .readData v)) = [] := by
  simp [receiveEvents, eventsOf]

/-- Of the events of one tick, those of the receive engine. -/
@[simp] theorem receiveEvents_emitted (c : Nat) (es : List Event) :
    receiveEvents (es.map fun e => (c, Observation.event e)).reverse
      = ((es.filter fun e => !e.isTransmit).map fun e => (c, e)).reverse := by
  induction es with
  | nil => rfl
  | cons e es ih =>
    rw [List.map_cons, List.reverse_cons, receiveEvents_append, ih]
    cases h : e.isTransmit <;> simp [receiveEvents, eventsOf, h]

/-- Every event of TxStep is the transmit engine's. -/
@[simp] theorem txStep_receiveEvents (k : Nat) (wr : Option (List Byte)) (tx : Transmit) :
    (txStep k wr tx).2.filter (fun e => !e.isTransmit) = [] := by
  cases hp : tx.phase with
  | idle => rcases wr with _ | _ | ⟨b, bs⟩ <;> simp [txStep, hp, Event.isTransmit]
  | start => by_cases hc : 1 < tx.cnt <;> simp [txStep, hp, hc]
  | data => by_cases hc : 1 < tx.cnt <;> by_cases hb : tx.bit.val < 7 <;> simp [txStep, hp, hc, hb]
  | stop => by_cases hc : 1 < tx.cnt <;> simp [txStep, hp, hc, Event.isTransmit]
  | cool =>
    by_cases hc : 1 < tx.cnt <;> by_cases hb : tx.idx + 1 < tx.buf.length <;>
      simp [txStep, hp, hc, hb, Event.isTransmit]

/-- Every event of a receive tick is the receive engine's. -/
@[simp] theorem decodeTick_receiveEvents (k : Nat) (det : Level) (rx : Receive) :
    (decodeTick k det rx).2.filter (fun e => !e.isTransmit) = (decodeTick k det rx).2 := by
  rcases decodeTick_cases k det rx with ⟨-, -, h⟩ | ⟨-, -, h⟩ | ⟨-, -, h⟩ | ⟨-, -, h⟩ | ⟨-, -, _, h⟩ | ⟨-, h⟩ <;>
    simp [h, Event.isTransmit]

/-- What a step outside reset does to the receive engine. -/
theorem step_receive {s : State} (hr : (currentInput s).rst = false) : ∃ t, step s = .next t
    ∧ t.tickScale = s.tickScale
    ∧ t.rx = { (decodeTick s.tickScale (detOf (currentInput s) s) s.rx).1 with detPrev := detOf (currentInput s) s }
    ∧ receiveEvents t.log
      = ((decodeTick s.tickScale (detOf (currentInput s) s) s.rx).2.map fun e => (s.clock, e)).reverse
        ++ receiveEvents s.log :=
  ⟨_, step_of_noReset hr, by simp, by simp [endTick_rx _ _ _ hr], by simp⟩

/-! The edge, and the arms of 40_decode.md R98, one equation each. -/

/-- A masked interrupt sees no edge (60_exceptions.md R170). -/
theorem edge_of_masked {rx : Receive} (h : rx.armed = false) (det : Level) : edge rx det = false := by
  simp [edge, h]

theorem decodeTick_of_edge (k : Nat) {det : Level} {rx : Receive} (hp : rx.phase = .idle) (he : edge rx det = true) :
    decodeTick k det rx = (rx.takeEdge k, [.rxStart]) := by
  simp [decodeTick, hp, he]

theorem decodeTick_of_no_edge (k : Nat) {det : Level} {rx : Receive} (hp : rx.phase = .idle) (he : edge rx det = false) :
    decodeTick k det rx = (rx, []) := by
  simp [decodeTick, hp, he]

theorem decodeTick_of_counting (k : Nat) (det : Level) {rx : Receive} (hp : rx.phase ≠ .idle) (hc : 1 < rx.cnt) :
    decodeTick k det rx = (rx.countDown, []) := by
  cases h : rx.phase with
  | idle => exact absurd h hp
  | settle => simp [decodeTick, h, hc]
  | wait => simp [decodeTick, h, hc]

theorem decodeTick_of_settled (k : Nat) (det : Level) {rx : Receive} (hp : rx.phase = .settle) (hc : rx.cnt ≤ 1) :
    decodeTick k det rx = (rx.sample k 0 det, []) := by
  simp [decodeTick, hp, Nat.not_lt.2 hc]

theorem decodeTick_of_waited (k : Nat) (det : Level) {rx : Receive} (hp : rx.phase = .wait) (hc : rx.cnt ≤ 1)
    {i : Fin 7} (hb : rx.bit = i.castSucc) : decodeTick k det rx = (rx.sample k i.succ det, []) := by
  have hn : nextSymbol rx.bit = some i.succ := by rw [hb]; exact nextSymbol_of_lt i.isLt
  simp [decodeTick, hp, Nat.not_lt.2 hc, hn]

theorem decodeTick_of_publishDue (k : Nat) (det : Level) {rx : Receive} (h : publishDue rx = true) :
    decodeTick k det rx = (rx.returnFromEdge, [.rxDone rx.acc]) := by
  obtain ⟨hp, hb, hc⟩ := (publishDue_iff rx).1 h
  simp [decodeTick, hp, Nat.not_lt.2 hc, nextSymbol_last hb]

/-- In one tick the idle engine enters the settle phase exactly at an edge. -/
theorem decodeTick_enters_iff (k : Nat) (det : Level) {rx : Receive} (hp : rx.phase = .idle) :
    (decodeTick k det rx).1.phase = .settle ↔ edge rx det = true := by
  cases he : edge rx det with
  | true => simp [decodeTick_of_edge k hp he]
  | false => simp [decodeTick_of_no_edge k hp he, hp]

/-! A decode in flight. -/

/-- The state `u` is in the decode that was entered in `s`, in the phase `phase` with the counters `bit` and `cnt` and the
accumulator `acc`: the interrupt is masked, RXREG holds the old byte and no receive event followed RX_START. -/
structure InDecode (s : State) (phase : RxPhase) (bit : Fin 8) (cnt : Nat) (acc : Byte) (u : State) : Prop where
  tickScale : u.tickScale = s.tickScale
  phase : u.rx.phase = phase
  bit : u.rx.bit = bit
  cnt : u.rx.cnt = cnt
  acc : u.rx.acc = acc
  armed : u.rx.armed = false
  reg : u.rx.reg = s.rx.reg
  events : receiveEvents u.log = (s.clock, .rxStart) :: receiveEvents s.log

/-- The step at the start edge enters the decode (40_decode.md R91). -/
theorem step_enters_decode {s : State} (hr : (currentInput s).rst = false) (hs : ReadyToReceive s)
    (hd : detOf (currentInput s) s = .low) :
    ∃ t, step s = .next t ∧ InDecode s .settle 0 (nSettle s.tickScale) 0x00#8 t := by
  obtain ⟨hp, ha, hv⟩ := hs
  obtain ⟨t, ht, hk, hrx, hlog⟩ := step_receive hr
  rw [decodeTick_of_edge _ hp ((edge_iff _ _).2 ⟨ha, hv, hd⟩)] at hrx hlog
  exact ⟨t, ht, by constructor <;> simp [*]⟩

section
variable {s u : State} {p : RxPhase} {b : Fin 8} {c : Nat} {a : Byte} (h : InDecode s p b c a u)
  (hr : (currentInput u).rst = false)
include h hr

theorem InDecode.step_counts (hp : p ≠ .idle) (hc : 1 < c) :
    ∃ t, step u = .next t ∧ InDecode s p b (c - 1) a t := by
  obtain ⟨t, ht, hk, hrx, hlog⟩ := step_receive hr
  obtain ⟨hk', rfl, rfl, rfl, rfl, ha, hreg, hev⟩ := h
  rw [decodeTick_of_counting _ _ hp hc] at hrx hlog
  exact ⟨t, ht, by constructor <;> simp [*]⟩

theorem InDecode.step_samples_first (hp : p = .settle) (hc : c = 1) :
    ∃ t, step u = .next t ∧
      InDecode s .wait 0 (nUnit s.tickScale) (accumulate a 0 (detOf (currentInput u) u)) t := by
  obtain ⟨t, ht, hk, hrx, hlog⟩ := step_receive hr
  obtain ⟨hk', rfl, rfl, rfl, rfl, ha, hreg, hev⟩ := h
  rw [decodeTick_of_settled _ _ hp hc.le] at hrx hlog
  exact ⟨t, ht, by constructor <;> simp [*]⟩

theorem InDecode.step_samples_next (hp : p = .wait) (hc : c = 1) {i : Fin 7} (hb : b = i.castSucc) :
    ∃ t, step u = .next t ∧
      InDecode s .wait i.succ (nUnit s.tickScale) (accumulate a i.succ (detOf (currentInput u) u)) t := by
  obtain ⟨t, ht, hk, hrx, hlog⟩ := step_receive hr
  obtain ⟨hk', rfl, rfl, rfl, rfl, ha, hreg, hev⟩ := h
  rw [decodeTick_of_waited _ _ hp hc.le hb] at hrx hlog
  exact ⟨t, ht, by constructor <;> simp [*]⟩

/-- The step that ends the last wait publishes; of the line it keeps the level of this tick alone (40_decode.md R95 to R97,
R101). -/
theorem InDecode.step_publishes (hp : p = .wait) (hc : c = 1) (hb : b = 7) :
    ∃ t, step u = .next t ∧ t.rx.phase = .idle ∧ t.rx.armed = true ∧ t.rx.reg = a
      ∧ t.rx.detPrev = detOf (currentInput u) u
      ∧ receiveEvents t.log = (u.clock, .rxDone a) :: (s.clock, .rxStart) :: receiveEvents s.log := by
  obtain ⟨t, ht, -, hrx, hlog⟩ := step_receive hr
  obtain ⟨-, rfl, rfl, rfl, rfl, -, -, hev⟩ := h
  rw [decodeTick_of_publishDue _ _ ((publishDue_iff _).2 ⟨hp, by simp [hb], hc.le⟩)] at hrx hlog
  exact ⟨t, ht, by simp [*]⟩

end

/-- The input a run meets before its reset-free ticks are over has RST = 0. -/
theorem noReset_of_run {N n : Nat} {s u : State} (hN : NoResetFor N s) (hn : n < N) (hu : run n s = .next u) :
    (currentInput u).rst = false := by
  rw [currentInput_of_run hu]
  exact hN n hn

/-- A wait of a decode counts down by one a tick, whatever DET does (40_decode.md R92, R94). -/
theorem InDecode.run_counts {N n m c : Nat} {s u : State} {p : RxPhase} {b : Fin 8} {a : Byte} (hN : NoResetFor N s)
    (hu : run n s = .next u) (h : InDecode s p b c a u) (hp : p ≠ .idle) (hm : m < c) (hle : n + m ≤ N) :
    ∃ t, run (n + m) s = .next t ∧ InDecode s p b (c - m) a t := by
  induction m with
  | zero => exact ⟨u, hu, h⟩
  | succ m ih =>
    obtain ⟨v, hv, hd⟩ := ih (by omega) (by omega)
    obtain ⟨t, ht, hd'⟩ := hd.step_counts (noReset_of_run hN (by omega) hv) hp (by omega)
    exact ⟨t, by rw [← Nat.add_assoc, run_succ_right hv, ht], by rwa [Nat.sub_sub] at hd'⟩

section
variable {N : Nat} {s : State} (hk : 0 < s.tickScale) (hs : ReadyToReceive s)
  (hd : detOf (currentInput s) s = .low) (hN : NoResetFor N s)
include hs hd hN

/-- Where the decode stands in the ticks `t0 + 1` to `t0 + N_SETTLE` (40_decode.md R92). -/
theorem run_in_settle {n : Nat} (hn : 1 ≤ n) (hle : n ≤ nSettle s.tickScale) (hnN : n ≤ N) :
    ∃ t, run n s = .next t ∧ InDecode s .settle 0 (nSettle s.tickScale + 1 - n) 0x00#8 t := by
  have hr : (currentInput s).rst = false := noReset_of_run hN (Nat.lt_of_lt_of_le hn hnN) (run_zero s)
  obtain ⟨u, hu, hdec⟩ := step_enters_decode hr hs hd
  obtain ⟨m, rfl⟩ := Nat.exists_eq_add_of_le hn
  obtain ⟨t, ht, hdec'⟩ := hdec.run_counts hN ((run_one s).trans hu) (by decide) (m := m) (by omega) hnN
  exact ⟨t, ht, by rwa [show nSettle s.tickScale + 1 - (1 + m) = nSettle s.tickScale - m by omega]⟩

include hk

/-- The step at tick `t0 + N_SETTLE + i·N_UNIT` takes sample `i` (40_decode.md R93). -/
theorem run_takes_sample (i : Fin 8) (hi : nSettle s.tickScale + i.val * nUnit s.tickScale < N) :
    ∃ u t, run (nSettle s.tickScale + i.val * nUnit s.tickScale) s = .next u ∧ step u = .next t
      ∧ InDecode s .wait i (nUnit s.tickScale) (accumulate u.rx.acc i (detOf (currentInput u) u)) t := by
  induction i using Fin.induction with
  | zero =>
    rw [Fin.val_zero, Nat.zero_mul, Nat.add_zero] at hi ⊢
    have hpos : 1 ≤ nSettle s.tickScale := by unfold nSettle; omega
    obtain ⟨u, hu, hdec⟩ := run_in_settle hs hd hN hpos le_rfl hi.le
    obtain ⟨t, ht, hdec'⟩ := hdec.step_samples_first (noReset_of_run hN hi hu) rfl (by omega)
    exact ⟨u, t, hu, ht, by rwa [hdec.acc]⟩
  | succ i ih =>
    have hpos : 1 ≤ nUnit s.tickScale := by unfold nUnit; omega
    have hnext : nSettle s.tickScale + i.succ.val * nUnit s.tickScale
        = nSettle s.tickScale + i.castSucc.val * nUnit s.tickScale + 1 + (nUnit s.tickScale - 1) := by
      rw [Fin.val_succ, Fin.val_castSucc, Nat.succ_mul]; omega
    rw [hnext] at hi ⊢
    obtain ⟨v, w, hv, hw, hdec⟩ := ih (by omega)
    obtain ⟨u, hu, hdec'⟩ := hdec.run_counts hN ((run_succ_right hv).trans hw) (by decide)
      (m := nUnit s.tickScale - 1) (by omega) hi.le
    obtain ⟨t, ht, hdec''⟩ := hdec'.step_samples_next (noReset_of_run hN hi hu) rfl (by omega) rfl
    exact ⟨u, t, hu, ht, by rwa [hdec'.acc]⟩

/-- Where the decode stands `m` ticks into the wait after sample `i` (40_decode.md R94). -/
theorem run_in_wait (i : Fin 8) {m : Nat} (hm : m < nUnit s.tickScale)
    (hi : nSettle s.tickScale + i.val * nUnit s.tickScale + 1 + m ≤ N) :
    ∃ t a, run (nSettle s.tickScale + i.val * nUnit s.tickScale + 1 + m) s = .next t
      ∧ InDecode s .wait i (nUnit s.tickScale - m) a t := by
  obtain ⟨u, v, hu, hv, hdec⟩ := run_takes_sample hk hs hd hN i (by omega)
  obtain ⟨t, ht, hdec'⟩ := hdec.run_counts hN ((run_succ_right hu).trans hv) (by decide) hm hi
  exact ⟨t, _, ht, hdec'⟩

/-- At every tick from `t0 + 1` to `tp` the decode is in flight (40_decode.md R101). -/
theorem run_in_decode {n : Nat} (hn : 1 ≤ n) (hle : n ≤ decodeTicks s.tickScale) (hnN : n ≤ N) :
    ∃ t p b c a, run n s = .next t ∧ InDecode s p b c a t := by
  by_cases hset : n ≤ nSettle s.tickScale
  · obtain ⟨t, ht, hdec⟩ := run_in_settle hs hd hN hn hset hnN
    exact ⟨t, _, _, _, _, ht, hdec⟩
  · obtain ⟨j, hj⟩ := Nat.exists_eq_add_of_lt (Nat.lt_of_not_le hset)
    have hj8 : j < nUnit s.tickScale * 8 := by unfold decodeTicks at hle; omega
    have hpos : 0 < nUnit s.tickScale := by unfold nUnit; omega
    have hsplit : n = nSettle s.tickScale + j / nUnit s.tickScale * nUnit s.tickScale + 1 + j % nUnit s.tickScale := by
      have := Nat.div_add_mod' j (nUnit s.tickScale)
      omega
    rw [hsplit] at hnN ⊢
    obtain ⟨t, a, ht, hdec⟩ :=
      run_in_wait hk hs hd hN ⟨j / nUnit s.tickScale, Nat.div_lt_of_lt_mul hj8⟩ (Nat.mod_lt j hpos) hnN
    exact ⟨t, _, _, _, a, ht, hdec⟩

/-- At tick `tp = t0 + N_SETTLE + 8·N_UNIT` PUBLISH is due (40_decode.md R94). -/
theorem run_to_publish (hle : decodeTicks s.tickScale ≤ N) :
    ∃ u, run (decodeTicks s.tickScale) s = .next u ∧ InDecode s .wait 7 1 u.rx.acc u := by
  have hpos : 0 < nUnit s.tickScale := by unfold nUnit; omega
  have htp : decodeTicks s.tickScale
      = nSettle s.tickScale + (7 : Fin 8).val * nUnit s.tickScale + 1 + (nUnit s.tickScale - 1) := by
    rw [decodeTicks, show (7 : Fin 8).val = 7 from rfl]; omega
  obtain ⟨u, a, hu, hdec⟩ := run_in_wait hk hs hd hN 7 (Nat.sub_lt hpos one_pos) (htp ▸ hle)
  rw [show nUnit s.tickScale - (nUnit s.tickScale - 1) = 1 from Nat.sub_sub_self hpos] at hdec
  exact ⟨u, htp ▸ hu, hdec.acc.symm ▸ hdec⟩

end

/-! The statements. -/

/-- Settles O9: the settle wait is where the decode stands in the ticks after its edge. -/
theorem settleWaitLastsNSettleTicks : Obligations.SettleWaitLastsNSettleTicks := by
  intro s _ hs hd hN n hn hle
  obtain ⟨t, ht, hdec⟩ := run_in_settle hs hd hN hn hle hle
  exact ⟨t, ht, hdec.phase, hdec.cnt⟩

/-- Settles O10: the step at the tick of sample `i` takes it, and the line shows `l` there. -/
theorem samplesAreTakenAtTheirTicks : Obligations.SamplesAreTakenAtTheirTicks := by
  intro s l hk hs h0 hl hN i
  have hi : nSettle s.tickScale + i.val * nUnit s.tickScale < decodeTicks s.tickScale :=
    Nat.add_lt_add_left (Nat.mul_lt_mul_of_pos_right i.isLt (by unfold nUnit; omega)) _
  have hd : detOf (currentInput s) s = .low := (hl 0 (Nat.zero_lt_of_lt hi) s (run_zero s)).trans h0
  obtain ⟨u, t, hu, ht, hdec⟩ := run_takes_sample hk hs hd hN i hi
  rw [hl _ hi u hu] at hdec
  exact ⟨u, t, hu, ht, hdec.acc, hdec.bit, hdec.cnt, hdec.phase⟩

/-- Settles O12: through tick `tp` the decode is in flight and masked, and the step at `tp` publishes. -/
theorem edgesDuringADecodeAreLost : Obligations.EdgesDuringADecodeAreLost := by
  intro s hk hs hd hN
  constructor
  · intro n hn hle
    obtain ⟨t, p, b, c, a, ht, hdec⟩ := run_in_decode hk hs hd hN hn hle (Nat.le_succ_of_le hle)
    exact ⟨t, ht, hdec.armed, edge_of_masked hdec.armed, hdec.events⟩
  · obtain ⟨u, hu, hdec⟩ := run_to_publish hk hs hd hN (Nat.le_succ _)
    obtain ⟨t, ht, hp, ha, -, hv, hev⟩ :=
      hdec.step_publishes (noReset_of_run hN (Nat.lt_succ_self _) hu) rfl rfl rfl
    obtain ⟨-, hclock⟩ := run_inputs_clock hu
    exact ⟨u, t, hu, ht, hp, ha, hv, hclock ▸ hev⟩

/-- Settles O5: a decode is presented with its start symbol, which is an edge here, and the engine takes it. -/
theorem decodeEntryDisarmsAndStartsTheSettleWait : Obligations.DecodeEntryDisarmsAndStartsTheSettleWait := by
  intro d s hp ha hv
  have hl : levelPresented d s.rx = .low := by simp [levelPresented, hp]
  have ht : decodeTick s.tickScale (levelPresented d s.rx) s.rx = (s.rx.takeEdge s.tickScale, [.rxStart]) :=
    decodeTick_of_edge _ hp ((edge_iff _ _).2 ⟨ha, hv, hl⟩)
  rw [exec, execDecode, ht]
  rfl

/-- Settles O6: the idle engine enters the settle phase exactly at an edge, and under the invariant only the idle engine is
armed (10_state.md R45). -/
theorem decodeStartsExactlyAtAFallingEdge : Obligations.DecodeStartsExactlyAtAFallingEdge := by
  intro s hr
  obtain ⟨t, ht, -, hrx, -⟩ := step_receive hr
  have henter : (s.rx.phase = .idle ∧ t.rx.phase = .settle)
      ↔ (s.rx.phase = .idle ∧ s.rx.armed = true ∧ s.rx.detPrev = .high ∧ detOf (currentInput s) s = .low) := by
    rw [hrx]
    exact and_congr_right fun hp => (decodeTick_enters_iff _ _ hp).trans (edge_iff _ _)
  refine ⟨t, ht, henter, ?_⟩
  rintro ⟨-, ⟨harm, -⟩, -⟩
  rw [henter]
  exact and_iff_right_of_imp fun ⟨ha, _⟩ => harm.1 ha

end Sys2Proof.Machine

/-! ## Proofs: ENCODE, one tick and the whole frame (41_encode.md) -/

namespace Sys2Proof.Machine

theorem nextSymbol_eq_some {i j : Fin 8} (h : i.val + 1 = j.val) : nextSymbol i = some j := by
  rw [nextSymbol_of_lt (by omega)]
  exact congrArg some (Fin.ext h)

theorem nUnit_pos {k : Nat} (hk : 0 < k) : 0 < nUnit k := Nat.mul_pos (by decide) hk

/-! The arms of 41_encode.md R115, one equation each. -/

section
variable (k : Nat) (b : Byte) {tx : Transmit}

theorem encodeTick_of_counting (hp : tx.phase = .start ∨ tx.phase = .data ∨ tx.phase = .stop) (hc : 1 < tx.cnt) :
    encodeTick k b tx = tx.countDown := by
  rcases hp with hp | hp | hp <;> simp [encodeTick, hp, hc]

theorem encodeTick_of_started (hp : tx.phase = .start) (hc : tx.cnt ≤ 1) : encodeTick k b tx = tx.driveData k b 0 := by
  simp [encodeTick, hp, Nat.not_lt.2 hc]

theorem encodeTick_of_next {j : Fin 8} (hp : tx.phase = .data) (hc : tx.cnt ≤ 1) (hb : tx.bit.val + 1 = j.val) :
    encodeTick k b tx = tx.driveData k b j := by
  simp [encodeTick, hp, Nat.not_lt.2 hc, nextSymbol_eq_some hb]

theorem encodeTick_of_last (hp : tx.phase = .data) (hc : tx.cnt ≤ 1) (hb : tx.bit = 7) :
    encodeTick k b tx = tx.driveStop k := by
  have hn : nextSymbol tx.bit = none := nextSymbol_last (by simp [hb])
  simp [encodeTick, hp, Nat.not_lt.2 hc, hn]

end

theorem exec_encode (b : Byte) (s : State) :
    exec (.encode b) s = .next { s with tx := encodeTick s.tickScale b s.tx } := rfl

/-! The same ticks in TxStep. -/

section
variable (k : Nat) (wr : Option (List Byte)) {tx : Transmit}

/-- Only an idle engine looks at WR. -/
theorem txStep_of_busy (hp : tx.phase ≠ .idle) : txStep k wr tx = txStep k none tx := by
  cases h : tx.phase with
  | idle => exact absurd h hp
  | _ => simp [txStep, h]

theorem txStep_of_counting (hp : tx.phase ≠ .idle) (hc : 1 < tx.cnt) : txStep k wr tx = (tx.countDown, []) := by
  cases h : tx.phase with
  | idle => exact absurd h hp
  | _ => simp [txStep, h, hc, Transmit.countDown]

/-- In the start symbol and the data symbols TxStep is ENCODE of TX_CUR. -/
theorem txStep_of_encoding (hp : tx.phase = .start ∨ tx.phase = .data) :
    txStep k wr tx = (encodeTick k tx.cur tx, []) := by
  by_cases hc : 1 < tx.cnt
  · rw [txStep_of_counting k wr (by rcases hp with h | h <;> simp [h]) hc,
      encodeTick_of_counting k tx.cur (by tauto) hc]
  · rcases hp with hp | hp
    · rw [encodeTick_of_started k tx.cur hp (Nat.le_of_not_lt hc)]
      simp [txStep, hp, hc, Transmit.driveData, dataSymbol, nUnit]
    · by_cases hb : tx.bit.val < 7 <;>
        simp [txStep, encodeTick, hp, hc, hb, nextSymbol, Transmit.driveData, Transmit.driveStop, dataSymbol, nUnit]

theorem txStep_of_stopped (hp : tx.phase = .stop) (hc : tx.cnt ≤ 1) :
    txStep k wr tx = (tx.startCooldown k, [.txSent tx.cur]) := by
  simp [txStep, hp, Nat.not_lt.2 hc, Transmit.startCooldown, nCooldown]

/-- TxStep begins a frame from the idle engine or at the end of a cooldown, and in no other way. -/
theorem txStep_begins_frame (hp : tx.phase ≠ .start) (h : (txStep k wr tx).1.phase = .start) :
    (tx.phase = .idle ∨ tx.phase = .cool) ∧ (txStep k wr tx).1.emit = .low ∧ (txStep k wr tx).1.cnt = nUnit k := by
  cases hq : tx.phase with
  | idle => rcases wr with _ | _ | ⟨b, bs⟩ <;> simp [txStep, hq, nUnit] at h ⊢
  | start => exact absurd hq hp
  | data => by_cases hc : 1 < tx.cnt <;> by_cases hb : tx.bit.val < 7 <;> simp [txStep, hq, hc, hb] at h
  | stop => by_cases hc : 1 < tx.cnt <;> simp [txStep, hq, hc] at h
  | cool =>
    by_cases hc : 1 < tx.cnt <;> by_cases hb : tx.idx + 1 < tx.buf.length <;> simp [txStep, hq, hc, hb, nUnit] at h ⊢

end

/-! The transmit elements along a run. -/

/-- Outside reset a step is TxStep on the transmit elements (42_sequencer.md R133). -/
theorem step_transmit {s : State} (hr : (currentInput s).rst = false) : ∃ t, step s = .next t
    ∧ t.tickScale = s.tickScale ∧ t.tx = (txStep s.tickScale (currentInput s).wr s.tx).1 :=
  ⟨_, step_of_noReset hr, by simp, by simp⟩

/-- A reset tick leaves the transmit elements at their reset values. -/
theorem step_tx_of_reset {s t : State} (hr : (currentInput s).rst = true) (h : step s = .next t) :
    t.tx = Transmit.reset := by
  have hrun : runAll (selected (currentInput s) s) s
      = runAll [.reset] { s with log := List.replicate (currentInput s).readers (s.clock, .readData s.rx.reg) ++ s.log } := by
    simp only [selected, hr, runAll_reads]
  rw [step, tickWith_eq (hrun.trans rfl)] at h
  cases h
  simp

/-- A step that begins a frame begins it from a line that is HIGH, with the start symbol. -/
theorem step_begins_frame {s u : State} (hi : Inv s) (hp : s.tx.phase ≠ .start) (h : step s = .next u)
    (hu : u.tx.phase = .start) :
    s.tx.emit = .high ∧ u.tickScale = s.tickScale ∧ u.tx.emit = .low ∧ u.tx.cnt = nUnit u.tickScale := by
  cases hr : (currentInput s).rst with
  | true => simp [step_tx_of_reset hr h] at hu
  | false =>
    obtain ⟨t, ht, hk, htx⟩ := step_transmit hr
    obtain rfl : u = t := Host.Outcome.next.inj (h.symm.trans ht)
    obtain ⟨hfrom, hemit, hcnt⟩ := txStep_begins_frame _ _ hp (htx ▸ hu)
    obtain ⟨-, -, -, hhigh, -⟩ := hi
    exact ⟨hhigh (by tauto), hk, htx ▸ hemit, by rw [htx, hcnt, hk]⟩

/-- After `n` ticks from `s`, K being the same, the transmit elements are `tx`. -/
def TxAfter (s : State) (n : Nat) (tx : Transmit) : Prop :=
  ∃ t, run n s = .next t ∧ t.tickScale = s.tickScale ∧ t.tx = tx

theorem txAfter_zero (s : State) : TxAfter s 0 s.tx := ⟨s, run_zero s, rfl, rfl⟩

section
variable {N n : Nat} {s : State} {tx tx' : Transmit} (hN : NoResetFor N s) (h : TxAfter s n tx)
include hN h

theorem TxAfter.succ (hp : tx.phase ≠ .idle) (hn : n < N) : TxAfter s (n + 1) (txStep s.tickScale none tx).1 := by
  obtain ⟨u, hu, hk, rfl⟩ := h
  obtain ⟨t, ht, hk', htx⟩ := step_transmit (noReset_of_run hN hn hu)
  exact ⟨t, (run_succ_right hu).trans ht, hk'.trans hk, by rw [htx, hk, txStep_of_busy _ _ hp]⟩

/-- A busy engine holds its symbol, TX_CNT counting down by one a tick. -/
theorem TxAfter.holds (hp : tx.phase ≠ .idle) {m : Nat} (hm : m < tx.cnt) (hle : n + m ≤ N) :
    TxAfter s (n + m) { tx with cnt := tx.cnt - m } := by
  induction m with
  | zero => exact h
  | succ m ih =>
    have hcount : 1 < tx.cnt - m := by omega
    have hnext := (ih (Nat.lt_of_succ_lt hm) (Nat.le_of_succ_le hle)).succ hN hp hle
    rwa [txStep_of_counting _ _ (tx := { tx with cnt := tx.cnt - m }) hp hcount] at hnext

/-- After TX_CNT ticks in its symbol a busy engine has taken the tick that ends it. -/
theorem TxAfter.ends (hp : tx.phase ≠ .idle) (hc : 0 < tx.cnt) (hle : n + tx.cnt ≤ N)
    (hnext : (txStep s.tickScale none { tx with cnt := 1 }).1 = tx') : TxAfter s (n + tx.cnt) tx' := by
  obtain ⟨c, hcnt⟩ := Nat.exists_eq_add_of_lt hc
  have hlast := h.holds hN hp (m := c) (by omega) (by omega)
  rw [show tx.cnt - c = 1 by omega] at hlast
  rw [show n + tx.cnt = n + c + 1 by omega, ← hnext]
  exact hlast.succ hN hp (by omega)

/-- A start symbol or data symbol is ended by ENCODE. -/
theorem TxAfter.encodes (hp : tx.phase = .start ∨ tx.phase = .data) (hc : 0 < tx.cnt) (hle : n + tx.cnt ≤ N)
    (hnext : encodeTick s.tickScale tx.cur { tx with cnt := 1 } = tx') : TxAfter s (n + tx.cnt) tx' := by
  have hend : txStep s.tickScale none { tx with cnt := 1 } = (tx', []) := hnext ▸ txStep_of_encoding _ _ hp
  exact h.ends hN (by rcases hp with hp | hp <;> simp [hp]) hc hle (congrArg Prod.fst hend)

end

/-! A whole frame, from the state `u` in which its start symbol begins. -/

section
variable {u : State} (hk : 0 < u.tickScale) (hp : u.tx.phase = .start) (hc : u.tx.cnt = nUnit u.tickScale)
  (hN : NoResetFor (10 * nUnit u.tickScale) u)
include hk hp hc hN

/-- Data symbol `i` begins `1 + i` unit intervals after the start symbol (41_encode.md R112). -/
theorem frame_begins_data (i : Fin 8) :
    TxAfter u ((1 + i.val) * nUnit u.tickScale) (u.tx.driveData u.tickScale u.tx.cur i) := by
  induction i using Fin.induction with
  | zero =>
    have hfirst := (txAfter_zero u).encodes hN (.inl hp) (hc ▸ nUnit_pos hk) (by omega)
      (tx' := u.tx.driveData u.tickScale u.tx.cur 0) (encodeTick_of_started _ _ hp le_rfl)
    simpa [hc] using hfirst
  | succ i ih =>
    have hticks : (1 + i.succ.val) * nUnit u.tickScale = (1 + i.castSucc.val) * nUnit u.tickScale + nUnit u.tickScale :=
      Nat.succ_mul _ _
    have hle : (1 + i.succ.val) * nUnit u.tickScale ≤ 10 * nUnit u.tickScale := Nat.mul_le_mul_right _ (by omega)
    rw [hticks] at hle ⊢
    exact ih.encodes hN (.inr rfl) (nUnit_pos hk) hle (encodeTick_of_next _ _ (j := i.succ) rfl le_rfl rfl)

/-- The stop symbol begins nine unit intervals after the start symbol (41_encode.md R113). -/
theorem frame_begins_stop :
    TxAfter u (9 * nUnit u.tickScale) ((u.tx.driveData u.tickScale u.tx.cur 7).driveStop u.tickScale) := by
  have hticks : 9 * nUnit u.tickScale = (1 + (7 : Fin 8).val) * nUnit u.tickScale + nUnit u.tickScale :=
    Nat.succ_mul _ _
  rw [hticks]
  exact (frame_begins_data hk hp hc hN 7).encodes hN (.inr rfl) (nUnit_pos hk) (hticks ▸ by omega)
    (encodeTick_of_last _ _ rfl le_rfl rfl)

/-- The cooldown begins ten unit intervals after the start symbol, EMIT as the stop symbol left it (42_sequencer.md
R128). -/
theorem frame_begins_cooldown :
    TxAfter u (10 * nUnit u.tickScale)
      (((u.tx.driveData u.tickScale u.tx.cur 7).driveStop u.tickScale).startCooldown u.tickScale) := by
  have hticks : 10 * nUnit u.tickScale = 9 * nUnit u.tickScale + nUnit u.tickScale := Nat.succ_mul _ _
  rw [hticks]
  exact (frame_begins_stop hk hp hc hN).ends hN (by simp) (nUnit_pos hk) hticks.ge
    (congrArg Prod.fst (txStep_of_stopped _ _ rfl le_rfl))

end

/-! The statements. -/

/-- Settles O22: a frame is begun with its start symbol from a line at HIGH, each of its symbols begins where the one before
was held for N_UNIT ticks, and a held symbol keeps all but TX_CNT. -/
theorem encodeDrivesTheTenSymbolsOfTheFrame : Obligations.EncodeDrivesTheTenSymbolsOfTheFrame := by
  intro s u hi hs hu hp hN
  obtain ⟨hhigh, hk', hlow, hc⟩ := step_begins_frame hi hs hu hp
  obtain ⟨hkpos, -, -⟩ := hi
  have hk : 0 < u.tickScale := hk' ▸ hkpos
  refine ⟨hhigh, fun m hm => ?start, fun i m hm => ?data, fun m hm => ?stop, ?cool⟩
  case start =>
    obtain ⟨t, ht, -, htx⟩ := (txAfter_zero u).holds hN (by simp [hp]) (hc ▸ hm) (by omega)
    exact ⟨t, Nat.zero_add m ▸ ht, by simp [htx, hp], by simp [htx, hlow]⟩
  case data =>
    have hle : (1 + i.val) * nUnit u.tickScale ≤ 8 * nUnit u.tickScale := Nat.mul_le_mul_right _ (by omega)
    obtain ⟨t, ht, -, htx⟩ := (frame_begins_data hk hp hc hN i).holds hN (by simp) hm (by omega)
    exact ⟨t, ht, by simp [htx], by simp [htx], by simp [htx, dataSymbol]⟩
  case stop =>
    obtain ⟨t, ht, -, htx⟩ := (frame_begins_stop hk hp hc hN).holds hN (by simp) hm (by omega)
    exact ⟨t, ht, by simp [htx], by simp [htx]⟩
  case cool =>
    obtain ⟨t, ht, -, htx⟩ := frame_begins_cooldown hk hp hc hN
    exact ⟨t, ht, by simp [htx], by simp [htx]⟩

/-- Settles O19, arm by arm. -/
theorem encodeHoldsOrDrivesTheNextSymbol : Obligations.EncodeHoldsOrDrivesTheNextSymbol := by
  intro b s
  refine ⟨fun hp hc => ?hold, fun hp hc => ?first, fun i j hij hp hb hc => ?next, fun hp hb hc => ?stop⟩
  case hold => rw [exec_encode, encodeTick_of_counting _ b hp hc]; rfl
  case first => rw [exec_encode, encodeTick_of_started _ b hp hc]; rfl
  case next =>
    rw [exec_encode, encodeTick_of_next _ b hp hc (hb ▸ hij)]
    simp [Transmit.driveData, dataSymbol, hp]
  case stop => rw [exec_encode, encodeTick_of_last _ b hp hc hb]; rfl

end Sys2Proof.Machine

/-! ## Proofs: SEQ and the acceptance of a WRITE (42_sequencer.md) -/

namespace Sys2Proof.Machine

/-! The arms of SEQ in 42_sequencer.md R133, one equation each. -/

section
variable (k : Nat) (buf : List Byte) {tx : Transmit}

theorem seqTick_of_stopped (hp : tx.phase = .stop) (hc : tx.cnt ≤ 1) :
    seqTick k buf tx = (tx.startCooldown k, [.txSent tx.cur]) := by
  simp [seqTick, hp, Nat.not_lt.2 hc]

theorem seqTick_of_cooling (hp : tx.phase = .cool) (hc : 1 < tx.cnt) : seqTick k buf tx = (tx.countDown, []) := by
  simp [seqTick, hp, hc]

theorem seqTick_of_next {b : Byte} (hp : tx.phase = .cool) (hc : tx.cnt ≤ 1) (hb : buf[tx.idx + 1]? = some b) :
    seqTick k buf tx = (tx.startFrame k (tx.idx + 1) b, []) := by
  simp [seqTick, hp, Nat.not_lt.2 hc, hb]

theorem seqTick_of_last (hp : tx.phase = .cool) (hc : tx.cnt ≤ 1) (hb : buf.length ≤ tx.idx + 1) :
    seqTick k buf tx = (tx.finish, [.wrDone buf.length]) := by
  have hnone : buf[tx.idx + 1]? = none := List.getElem?_eq_none hb
  simp [seqTick, hp, Nat.not_lt.2 hc, hnone]

end

theorem exec_seq (buf : List Byte) (s : State) :
    exec (.seq buf) s
      = .next ((s.setTx (seqTick s.tickScale buf s.tx).1).emitAll (seqTick s.tickScale buf s.tx).2) := rfl

/-! WRITE on an idle and on a busy engine. -/

theorem exec_write_empty {s : State} (hp : s.tx.phase = .idle) :
    exec (.write []) s = .next (s.emitAll [.wrDone 0]) := by
  simp [exec, execWrite, wrReady, hp]

theorem exec_write_of_busy (buf : List Byte) {s : State} (hp : s.tx.phase ≠ .idle) :
    exec (.write buf) s = .next s := by
  simp [exec, execWrite, wrReady, hp]

/-- The first arm of TxStep: the buffer is taken and the frame of its first byte begun. -/
theorem txStep_of_accepted (k : Nat) (b : Byte) (bs : List Byte) {tx : Transmit} (hp : tx.phase = .idle) :
    txStep k (some (b :: bs)) tx = (Transmit.startFrame k 0 b { tx with buf := b :: bs }, []) := by
  simp [txStep, hp, Transmit.startFrame, nUnit]

/-! The tick in which a WRITE is offered. -/

/-- Only an idle engine looks at WR when its operation is selected. -/
theorem selectTransmit_of_busy (wr : Option (List Byte)) {tx : Transmit} (hp : tx.phase ≠ .idle) :
    selectTransmit wr tx = selectTransmit none tx := by
  cases h : tx.phase with
  | idle => exact absurd h hp
  | _ => simp [selectTransmit, h]

/-- A tick with the engine busy is the tick in which nothing is offered, in a reset tick too. -/
theorem tickWith_of_busy (inp : Input) {s : State} (hp : s.tx.phase ≠ .idle) :
    tickWith inp s = tickWith { inp with wr := none } s := by
  have hsel : selected inp s = selected { inp with wr := none } s := by
    simp only [selected, selectTransmit_of_busy inp.wr hp, detOf]
  have hend : endTick inp s = endTick { inp with wr := none } s := rfl
  rw [tickWith, tickWith, hsel, hend]

/-- Outside reset a tick under any input is TxStep on the transmit elements. -/
theorem tickWith_transmit {inp : Input} (s : State) (hr : inp.rst = false) :
    ∃ t, tickWith inp s = .next t ∧ t.tx = (txStep s.tickScale inp.wr s.tx).1 :=
  ⟨_, tickWith_eq (runAll_selected_of_noReset s hr), by simp⟩

/-! The statements. -/

/-- Settles O29: an offered WRITE is selected where WR_READY is 1, TxStep then begins its first frame, and a busy engine
does not look at WR. -/
theorem writeIsAcceptedExactlyWhenTheTransmitterIsIdle :
    Obligations.WriteIsAcceptedExactlyWhenTheTransmitterIsIdle := by
  intro s inp buf hr hw
  refine ⟨(write_mem_selected s hr hw).trans (wrReady_iff s.tx), fun hp hne => ?accepted, fun hp => ?busy⟩
  case accepted =>
    obtain ⟨b, bs, rfl⟩ := List.exists_cons_of_ne_nil hne
    obtain ⟨t, ht, htx⟩ := tickWith_transmit s hr
    rw [hw, txStep_of_accepted _ b bs hp] at htx
    exact ⟨t, ht, by simp [htx], by simp [htx]⟩
  case busy => exact ⟨tickWith_of_busy inp hp, exec_write_of_busy buf hp⟩

/-- Settles O20: the last tick of the stop symbol is SEQ's first arm. -/
theorem seqLogsTheByteSentAndStartsTheCooldown : Obligations.SeqLogsTheByteSentAndStartsTheCooldown := by
  intro buf s hp hc
  rw [exec_seq, seqTick_of_stopped _ _ hp hc]
  rfl

/-- Settles O21, arm by arm. -/
theorem seqCoolsDownThenSendsTheNextByteOrCompletes : Obligations.SeqCoolsDownThenSendsTheNextByteOrCompletes := by
  intro buf s hp
  refine ⟨fun hc => ?hold, fun b hc hb => ?next, fun hc hb => ⟨?last, (wrReady_iff _).2 rfl⟩⟩
  case hold => rw [exec_seq, seqTick_of_cooling _ _ hp hc]; rfl
  case next => rw [exec_seq, seqTick_of_next _ _ hp hc hb]; rfl
  case last => rw [exec_seq, seqTick_of_last _ _ hp hc hb]; rfl

/-- Settles O28: the engine stays as it is and the one event is logged. -/
theorem emptyWriteCompletesInTheSameStep : Obligations.EmptyWriteCompletesInTheSameStep :=
  fun _ hp => exec_write_empty hp

end Sys2Proof.Machine

/-! ## Proofs: READ (43_endpoint.md) -/

namespace Sys2Proof.Machine

theorem exec_read (s : State) : exec .read s = .next (s.observe (.readData s.rx.reg)) := rfl

/-- Settles O24: READ is one observation of RXREG, which adds to the log and leaves every element as it is. -/
theorem readReturnsTheReceiveRegister : Obligations.ReadReturnsTheReceiveRegister := by
  intro s
  rw [exec_read, State.observe]

end Sys2Proof.Machine

/-! ## Proofs: the events of one tick (44_block_step.md R157) -/

namespace Sys2Proof.Machine

/-! The events of a log, part by part. -/

@[simp] theorem eventsOf_append (log log' : List (Nat × Observation)) :
    eventsOf (log ++ log') = eventsOf log ++ eventsOf log' := by
  simp [eventsOf]

@[simp] theorem eventsOf_reads (n c : Nat) (v : Byte) : eventsOf (List.replicate n (c, .readData v)) = [] := by
  simp [eventsOf]

@[simp] theorem eventsOf_emitted (c : Nat) (es : List Event) :
    eventsOf (es.map fun e => (c, Observation.event e)).reverse = (es.map fun e => (c, e)).reverse := by
  simp [eventsOf, List.filterMap_reverse, List.filterMap_map]

/-- Events stamped with `c` bear that stamp, and each is one of those emitted. -/
theorem stamped_of_mem {c : Nat} {es : List Event} {p : Nat × Event} (hp : p ∈ (es.map fun e => (c, e)).reverse) :
    p.1 = c ∧ p.2 ∈ es := by
  obtain ⟨e, he, rfl⟩ := List.mem_map.1 (List.mem_reverse.1 hp)
  exact ⟨rfl, he⟩

/-! What each engine emits in a tick. -/

section
variable (k : Nat)

/-- TxStep emits at its completions alone: of an empty write, of a stop symbol and of the last cooldown. -/
theorem txStep_events_length_le_one (wr : Option (List Byte)) (tx : Transmit) : (txStep k wr tx).2.length ≤ 1 := by
  by_cases hc : tx.phase ≠ .idle ∧ 1 < tx.cnt
  · simp [txStep_of_counting k wr hc.1 hc.2]
  · cases hp : tx.phase with
    | idle => rcases wr with _ | _ | ⟨b, bs⟩ <;> simp [txStep, hp]
    | start => simp [txStep_of_encoding k wr (.inl hp)]
    | data => simp [txStep_of_encoding k wr (.inr hp)]
    | stop => simp [txStep_of_stopped k wr hp (by simpa [hp] using hc)]
    | cool =>
      have hle : ¬ 1 < tx.cnt := by simpa [hp] using hc
      by_cases hb : tx.idx + 1 < tx.buf.length <;> simp [txStep, hp, hle, hb]

theorem isTransmit_of_mem_txStep {wr : Option (List Byte)} {tx : Transmit} {e : Event} (he : e ∈ (txStep k wr tx).2) :
    e.isTransmit = true := by
  simpa using List.filter_eq_nil_iff.1 (txStep_receiveEvents k wr tx) e he

/-- A receive tick emits at its entry and at its PUBLISH alone. -/
theorem decodeTick_events_length_le_one (det : Level) (rx : Receive) : (decodeTick k det rx).2.length ≤ 1 := by
  rcases decodeTick_cases k det rx with ⟨-, -, h⟩ | ⟨-, -, h⟩ | ⟨-, -, h⟩ | ⟨-, -, h⟩ | ⟨-, -, _, h⟩ | ⟨-, h⟩ <;> simp [h]

theorem not_isTransmit_of_mem_decodeTick {det : Level} {rx : Receive} {e : Event} (he : e ∈ (decodeTick k det rx).2) :
    e.isTransmit = false := by
  simpa using List.filter_eq_self.1 (decodeTick_receiveEvents k det rx) e he

end

/-! The events of a step. -/

/-- Outside reset a step adds TxStep's events and then the receive tick's. -/
theorem step_events_of_noReset {s : State} (hr : (currentInput s).rst = false) : ∃ t, step s = .next t
    ∧ eventsOf t.log
      = ((decodeTick s.tickScale (detOf (currentInput s) s) s.rx).2.map fun e => (s.clock, e)).reverse
        ++ (((txStep s.tickScale (currentInput s).wr s.tx).2.map fun e => (s.clock, e)).reverse ++ eventsOf s.log) :=
  ⟨_, step_of_noReset hr, by simp⟩

/-- A reset tick is its READs and the RESET, whatever the engines were doing (60_exceptions.md R173). -/
theorem step_of_reset {s : State} (hr : (currentInput s).rst = true) :
    step s = .next (endTick (currentInput s) s { s.afterReads (currentInput s).readers with
      rx := Receive.reset (rxregResetFor s), tx := Transmit.reset, tick := 0 }) := by
  have hsel : selected (currentInput s) s = List.replicate (currentInput s).readers .read ++ [.reset] := by
    simp [selected, hr]
  refine tickWith_eq ?_
  rw [hsel, runAll_reads]
  rfl

theorem step_events_of_reset {s : State} (hr : (currentInput s).rst = true) :
    ∃ t, step s = .next t ∧ eventsOf t.log = eventsOf s.log :=
  ⟨_, step_of_reset hr, by simp⟩

/-- Settles O36: a reset tick adds no event, any other tick those of TxStep and then those of the receive tick. -/
theorem atMostOneEventOfEachEngineInOneTick : Obligations.AtMostOneEventOfEachEngineInOneTick := by
  intro s
  cases hr : (currentInput s).rst with
  | true =>
    obtain ⟨t, ht, hev⟩ := step_events_of_reset hr
    exact ⟨t, [], [], ht, by simp [hev]⟩
  | false =>
    obtain ⟨t, ht, hev⟩ := step_events_of_noReset hr
    refine ⟨t, _, _, ht, hev, ?oneTransmit, ?oneReceive, fun p hp => ?transmit, fun p hp => ?receive⟩
    case oneTransmit => simpa using txStep_events_length_le_one _ _ _
    case oneReceive => simpa using decodeTick_events_length_le_one _ _ _
    case transmit => exact (stamped_of_mem hp).imp_right (isTransmit_of_mem_txStep _)
    case receive => exact (stamped_of_mem hp).imp_right (not_isTransmit_of_mem_decodeTick _)

end Sys2Proof.Machine

/-! ## Proofs: the edge interrupt, its mask and its return (60_exceptions.md) -/

namespace Sys2Proof.Machine

/-! Who writes RX_ARMED. -/

/-- A receive tick that changes RX_ARMED takes the edge interrupt or returns from it; the other arms keep it. -/
theorem decodeTick_of_armed_ne {k : Nat} {det : Level} {rx : Receive} (hne : (decodeTick k det rx).1.armed ≠ rx.armed) :
    (rx.phase = .idle ∧ edge rx det = true ∧ (decodeTick k det rx).1 = rx.takeEdge k)
      ∨ (publishDue rx = true ∧ (decodeTick k det rx).1 = rx.returnFromEdge) := by
  have hchanged {rx' : Receive} {es : List Event} (h : decodeTick k det rx = (rx', es)) : rx'.armed ≠ rx.armed := by
    rwa [h] at hne
  rcases decodeTick_cases k det rx with ⟨-, -, h⟩ | ⟨hp, he, h⟩ | ⟨-, -, h⟩ | ⟨-, -, h⟩ | ⟨-, -, _, h⟩ | ⟨hdue, h⟩
  · exact absurd rfl (hchanged h)
  · exact .inl ⟨hp, he, by rw [h]⟩
  · exact absurd rx.countDown_armed (hchanged h)
  · exact absurd (rx.sample_armed k _ det) (hchanged h)
  · exact absurd (rx.sample_armed k _ det) (hchanged h)
  · exact .inr ⟨hdue, by rw [h]⟩

/-- A reset tick enables the interrupt. -/
theorem step_armed_of_reset {s t : State} (hr : (currentInput s).rst = true) (h : step s = .next t) :
    t.rx.armed = true := by
  rw [step_of_reset hr] at h
  cases h
  simp [endTick_rx_of_reset _ _ _ hr]

/-- Settles O16: a step outside reset changes RX_ARMED as its receive tick does, at the entry or at the PUBLISH. -/
theorem onlyEntryPublishAndResetChangeTheInterruptEnable :
    Obligations.OnlyEntryPublishAndResetChangeTheInterruptEnable := by
  intro s t h
  refine ⟨edge_of_masked, fun hne => ?_⟩
  cases hr : (currentInput s).rst with
  | true => exact .inr ⟨step_armed_of_reset hr h, .inl rfl⟩
  | false =>
    have hrx := step_rx_of_noReset hr h
    rw [rxStep_eq] at hrx
    rw [hrx] at hne
    rcases decodeTick_of_armed_ne hne with ⟨hp, he, htake⟩ | ⟨hdue, hret⟩
    · exact .inl ⟨by simp [hrx, htake], hp, he, by simp [hrx, htake]⟩
    · exact .inr ⟨by simp [hrx, hret], .inr (publish_mem_selected_of_due hr hdue)⟩

/-! The return from the interrupt. -/

theorem exec_publish_of_due {s : State} (h : publishDue s.rx = true) :
    exec .publish s = .next ((s.setRx s.rx.returnFromEdge).emitAll [.rxDone s.rx.acc]) := if_pos h

/-- Settles O8: on its condition PUBLISH is due, and it is the return from the edge interrupt with its one event. -/
theorem publishWritesTheByteRearmsAndLogs : Obligations.PublishWritesTheByteRearmsAndLogs := by
  intro s hp hb hc
  exact exec_publish_of_due ((publishDue_iff _).2 ⟨hp, by simp [hb], hc.le⟩)

end Sys2Proof.Machine

/-! ## Proofs: RESET and the reset tick (70_reset_and_hazards.md) -/

namespace Sys2Proof.Machine

theorem exec_reset (s : State) :
    exec .reset s = .next { s with rx := Receive.reset (rxregResetFor s), tx := Transmit.reset, tick := 0 } := rfl

/-- Settles O2: RESET's next state is built from the reset state's definition, with RXREG the byte of this reset. -/
theorem resetPutsEveryElementAtItsResetValue : Obligations.ResetPutsEveryElementAtItsResetValue := by
  intro s
  refine ⟨rxregResetFor s, ?_⟩
  rw [exec_reset, Receive.reset, Transmit.reset]

/-- Settles O3: a reset tick is its READs, which are no events, and then the RESET, whose elements the end of the tick
leaves as they are. -/
theorem resetTickWinsOverEverything : Obligations.ResetTickWinsOverEverything := by
  intro s hr
  refine ⟨_, rxregResetFor s, step_of_reset hr, ?receive, ?transmit, ?tick, ?events⟩
  case receive => rw [endTick_rx_of_reset _ _ _ hr, Receive.reset]
  case transmit => rw [endTick_tx, Transmit.reset]
  case tick => rw [endTick_tick_of_reset _ _ _ hr]
  case events => simp

end Sys2Proof.Machine

/-! ## Proofs: the elements after a tick, and the invariant (10_state.md section 7, 44_block_step.md R155) -/

namespace Sys2Proof.Machine

/-! What a tick leaves in each field. -/

section
variable {inp : Input} {s t : State}

/-- The elements and counts after a tick outside reset: TxStep and RxStep, each on the elements the tick began with. -/
theorem tickWith_elements (hr : inp.rst = false) (h : tickWith inp s = .next t) :
    t.tickScale = s.tickScale ∧ t.tx = (txStep s.tickScale inp.wr s.tx).1
      ∧ t.rx = (rxStep s.tickScale (detOf inp s) s.rx).1 ∧ t.inputs = s.inputs.tail ∧ t.clock = s.clock + 1 := by
  rw [tickWith_eq (runAll_selected_of_noReset s hr)] at h
  cases h
  simp [endTick_rx _ _ _ hr, rxStep_eq]

/-- What a tick outside reset adds to the log: its READs, then TxStep's events, then RxStep's. -/
theorem tickWith_log (hr : inp.rst = false) (h : tickWith inp s = .next t) :
    t.log = ((rxStep s.tickScale (detOf inp s) s.rx).2.map fun e => (s.clock, Observation.event e)).reverse
      ++ (((txStep s.tickScale inp.wr s.tx).2.map fun e => (s.clock, Observation.event e)).reverse
        ++ (List.replicate inp.readers (s.clock, .readData s.rx.reg) ++ s.log)) := by
  rw [tickWith_eq (runAll_selected_of_noReset s hr)] at h
  cases h
  simp [rxStep_eq]

/-- What a reset tick leaves in each field. -/
theorem step_elements_of_reset (hr : (currentInput s).rst = true) (h : step s = .next t) :
    t.tickScale = s.tickScale ∧ t.tx = Transmit.reset ∧ t.rx = Receive.reset (rxregResetFor s)
      ∧ t.inputs = s.inputs.tail ∧ t.clock = s.clock + 1
      ∧ t.log = List.replicate (currentInput s).readers (s.clock, .readData s.rx.reg) ++ s.log := by
  rw [step_of_reset hr] at h
  cases h
  simp [endTick_rx_of_reset _ _ _ hr]

end

/-! What a tick outside reset adds to each part of the log. -/

@[simp] theorem transmitEvents_append (log log' : List (Nat × Observation)) :
    transmitEvents (log ++ log') = transmitEvents log ++ transmitEvents log' := by
  simp [transmitEvents]

@[simp] theorem transmitEvents_reads (n c : Nat) (v : Byte) :
    transmitEvents (List.replicate n (c, .readData v)) = [] := by
  simp [transmitEvents]

/-- Of the events of one tick, those of the transmit engine. -/
@[simp] theorem transmitEvents_emitted (c : Nat) (es : List Event) :
    transmitEvents (es.map fun e => (c, Observation.event e)).reverse
      = ((es.filter fun e => e.isTransmit).map fun e => (c, e)).reverse := by
  rw [transmitEvents, eventsOf_emitted, List.filter_reverse, List.filter_map]
  rfl

@[simp] theorem readsOf_append (log log' : List (Nat × Observation)) :
    readsOf (log ++ log') = readsOf log ++ readsOf log' := by
  simp [readsOf]

@[simp] theorem readsOf_reads (n c : Nat) (v : Byte) :
    readsOf (List.replicate n (c, .readData v)) = List.replicate n (c, v) := by
  simp [readsOf]

/-- An event is no READ's result. -/
@[simp] theorem readsOf_emitted (c : Nat) (es : List Event) :
    readsOf (es.map fun e => (c, Observation.event e)).reverse = [] := by
  simp [readsOf]

@[simp] theorem txStep_transmitEvents (k : Nat) (wr : Option (List Byte)) (tx : Transmit) :
    (txStep k wr tx).2.filter (fun e => e.isTransmit) = (txStep k wr tx).2 :=
  List.filter_eq_self.2 fun _ he => isTransmit_of_mem_txStep k he

@[simp] theorem decodeTick_transmitEvents (k : Nat) (det : Level) (rx : Receive) :
    (decodeTick k det rx).2.filter (fun e => e.isTransmit) = [] :=
  List.filter_eq_nil_iff.2 fun _ he => by simp [not_isTransmit_of_mem_decodeTick k he]

section
variable {inp : Input} {s t : State} (hr : inp.rst = false) (h : tickWith inp s = .next t)
include hr h

theorem tickWith_transmitEvents :
    transmitEvents t.log
      = ((txStep s.tickScale inp.wr s.tx).2.map fun e => (s.clock, e)).reverse ++ transmitEvents s.log := by
  simp [tickWith_log hr h, rxStep_eq]

theorem tickWith_receiveEvents :
    receiveEvents t.log
      = ((rxStep s.tickScale (detOf inp s) s.rx).2.map fun e => (s.clock, e)).reverse ++ receiveEvents s.log := by
  simp [tickWith_log hr h, rxStep_eq]

theorem tickWith_eventsOf :
    eventsOf t.log
      = (((txStep s.tickScale inp.wr s.tx).2 ++ (rxStep s.tickScale (detOf inp s) s.rx).2).map
          fun e => (s.clock, e)).reverse ++ eventsOf s.log := by
  simp [tickWith_log hr h]

theorem tickWith_readsOf :
    readsOf t.log = List.replicate inp.readers (s.clock, s.rx.reg) ++ readsOf s.log := by
  simp [tickWith_log hr h]

end

/-! The end of a cooldown in TxStep (42_sequencer.md R133). -/

section
variable (k : Nat) (wr : Option (List Byte)) {tx : Transmit}

theorem txStep_of_next_byte {b : Byte} (hp : tx.phase = .cool) (hc : tx.cnt ≤ 1) (hb : tx.buf[tx.idx + 1]? = some b) :
    txStep k wr tx = (tx.startFrame k (tx.idx + 1) b, []) := by
  obtain ⟨hlt, rfl⟩ := List.getElem?_eq_some_iff.1 hb
  simp [txStep, hp, Nat.not_lt.2 hc, hlt, Transmit.startFrame, nUnit]

theorem txStep_of_completed (hp : tx.phase = .cool) (hc : tx.cnt ≤ 1) (hb : tx.buf.length ≤ tx.idx + 1) :
    txStep k wr tx = (tx.finish, [.wrDone tx.buf.length]) := by
  simp [txStep, hp, Nat.not_lt.2 hc, Nat.not_lt.2 hb, Transmit.finish]

end

/-! The invariant, engine by engine. -/

theorem receiveInv_reset (k : Nat) (r : Byte) : ReceiveInv k (Receive.reset r) := by simp [ReceiveInv]

theorem transmitInv_reset (k : Nat) : TransmitInv k Transmit.reset := by simp [TransmitInv]

/-- An accumulator that holds samples `0` to `i - 1` alone holds samples `0` to `i` alone once sample `i` is ORed in. -/
theorem accumulate_shiftRight {acc : Byte} {i : Fin 8} (l : Level) (h : acc >>> i.val = 0x00#8) :
    accumulate acc i l >>> (i.val + 1) = 0x00#8 := by
  refine BitVec.eq_of_getLsbD_eq fun j _ => ?_
  have hbit : acc.getLsbD (i.val + (1 + j)) = false := by
    rw [← BitVec.getLsbD_ushiftRight, h, BitVec.getLsbD_zero]
  rw [BitVec.getLsbD_ushiftRight, accumulate_getLsbD, Nat.add_assoc, hbit]
  simp

/-- RxStep keeps the receive elements' invariant, arm by arm (40_decode.md R98). -/
theorem rxStep_keeps_inv {k : Nat} (hk : 0 < k) (det : Level) {rx : Receive} (h : ReceiveInv k rx) :
    ReceiveInv k (rxStep k det rx).1 := by
  obtain ⟨harm, hcnt, hsettle, hwait⟩ := h
  have hunit : 0 < nUnit k ∧ nUnit k ≤ nSettle k := by unfold nUnit nSettle; omega
  rw [rxStep_eq]
  rcases decodeTick_cases k det rx with ⟨-, -, h⟩ | ⟨-, -, h⟩ | ⟨-, hc, h⟩ | ⟨hp, -, h⟩ | ⟨hp, -, hb, h⟩ | ⟨-, h⟩ <;> rw [h]
  · exact ⟨harm, hcnt, hsettle, hwait⟩
  · simp [ReceiveInv]; omega
  · refine ⟨harm, ?_, fun hp => ?_, fun hp => ?_⟩
    · simp; omega
    · obtain ⟨-, hacc⟩ := hsettle hp
      exact ⟨by simp; omega, hacc⟩
    · obtain ⟨-, hle, hacc⟩ := hwait hp
      exact ⟨by simp; omega, by simp; omega, hacc⟩
  · obtain ⟨-, hacc, -⟩ := hsettle hp
    have hshift := accumulate_shiftRight (i := 0) det (show rx.acc >>> (0 : Fin 8).val = 0x00#8 by simp [hacc])
    refine ⟨by simp [harm, hp], hunit.2, by simp, fun _ => ⟨hunit.1, le_rfl, hshift⟩⟩
  · obtain ⟨-, -, hacc⟩ := hwait hp
    have hshift := accumulate_shiftRight (i := ⟨rx.bit.val + 1, Nat.succ_lt_succ hb⟩) det hacc
    exact ⟨by simp [harm, hp], hunit.2, by simp, fun _ => ⟨hunit.1, le_rfl, hshift⟩⟩
  · simp [ReceiveInv, hcnt]

/-- TxStep keeps the transmit elements' invariant, phase by phase (42_sequencer.md R133). -/
theorem txStep_keeps_inv {k : Nat} (hk : 0 < k) (wr : Option (List Byte)) {tx : Transmit} (h : TransmitInv k tx) :
    TransmitInv k (txStep k wr tx).1 := by
  obtain ⟨hcnt, hhigh, hlow, hdata, hbusy, hunit⟩ := h
  have hticks : 0 < nUnit k ∧ nUnit k ≤ nCooldown k ∧ 0 < nCooldown k := by unfold nUnit nCooldown; omega
  by_cases hc : tx.phase ≠ .idle ∧ 1 < tx.cnt
  · obtain ⟨hp, hc⟩ := hc
    rw [txStep_of_counting k wr hp hc]
    exact ⟨(Nat.sub_le _ _).trans hcnt, hhigh, hlow, hdata, fun _ => ⟨Nat.le_sub_one_of_lt hc, (hbusy hp).2⟩,
      fun h => (Nat.sub_le _ _).trans (hunit h)⟩
  · have hend : tx.phase ≠ .idle → tx.cnt ≤ 1 := fun hp => Nat.le_of_not_lt fun hlt => hc ⟨hp, hlt⟩
    cases hp : tx.phase with
    | idle =>
      rcases wr with _ | _ | ⟨b, bs⟩
      · simp [txStep, hp, TransmitInv, hcnt, hhigh]
      · simp [txStep, hp, TransmitInv, hcnt, hhigh]
      · simp [txStep_of_accepted k b bs hp, TransmitInv]; omega
    | start =>
      simp [txStep_of_encoding k wr (.inl hp), encodeTick_of_started k _ hp (hend (by simp [hp])), TransmitInv,
        (hbusy (by simp [hp])).2]
      omega
    | data =>
      have hcur := (hbusy (by simp [hp])).2
      rw [txStep_of_encoding k wr (.inr hp)]
      by_cases hb : tx.bit = 7
      · simp [encodeTick_of_last k _ hp (hend (by simp [hp])) hb, TransmitInv, hcur]; omega
      · simp [encodeTick_of_next k _ (j := tx.bit + 1) hp (hend (by simp [hp])) (by omega), TransmitInv, hcur]; omega
    | stop =>
      simp [txStep_of_stopped k wr hp (hend (by simp [hp])), TransmitInv, hhigh (.inr (.inl hp)),
        (hbusy (by simp [hp])).2]
      omega
    | cool =>
      by_cases hb : tx.idx + 1 < tx.buf.length
      · simp [txStep_of_next_byte k wr hp (hend (by simp [hp])) (List.getElem?_eq_getElem hb), TransmitInv, hb]; omega
      · simp [txStep_of_completed k wr hp (hend (by simp [hp])) (Nat.le_of_not_lt hb), TransmitInv, hcnt,
          hhigh (.inr (.inr hp))]

/-! The invariant along a step and along a run. -/

section
variable {s t : State} (hk : 0 < s.tickScale)
include hk

theorem step_keeps_receiveInv (hrx : ReceiveInv s.tickScale s.rx) (h : step s = .next t) :
    t.tickScale = s.tickScale ∧ ReceiveInv t.tickScale t.rx := by
  cases hr : (currentInput s).rst with
  | true =>
    obtain ⟨hk', -, hrx', -⟩ := step_elements_of_reset hr h
    rw [hk', hrx']
    exact ⟨rfl, receiveInv_reset _ _⟩
  | false =>
    obtain ⟨hk', -, hrx', -⟩ := tickWith_elements hr h
    rw [hk', hrx']
    exact ⟨rfl, rxStep_keeps_inv hk _ hrx⟩

theorem step_keeps_transmitInv (htx : TransmitInv s.tickScale s.tx) (h : step s = .next t) :
    TransmitInv t.tickScale t.tx := by
  cases hr : (currentInput s).rst with
  | true =>
    obtain ⟨-, htx', -⟩ := step_elements_of_reset hr h
    rw [htx']
    exact transmitInv_reset _
  | false =>
    obtain ⟨hk', htx', -⟩ := tickWith_elements hr h
    rw [hk', htx']
    exact txStep_keeps_inv hk _ htx

theorem run_keeps_receiveInv {n : Nat} (hrx : ReceiveInv s.tickScale s.rx) (h : run n s = .next t) :
    ReceiveInv t.tickScale t.rx := by
  induction n generalizing s with
  | zero => cases h; exact hrx
  | succ n ih =>
    obtain ⟨u, hu⟩ := tickWith_total (currentInput s) s
    obtain ⟨hk', hrx'⟩ := step_keeps_receiveInv hk hrx hu
    exact ih (hk' ▸ hk) hrx' ((run_succ n hu).symm.trans h)

end

/-- Settles O41: K stays positive, and each engine's part is kept by that engine's step and holds at a reset. -/
theorem everyStepKeepsTheInvariant : Obligations.EveryStepKeepsTheInvariant := by
  rintro s t ⟨hk, hrx, htx⟩ h
  obtain ⟨hk', hrx'⟩ := step_keeps_receiveInv hk hrx h
  exact ⟨hk' ▸ hk, hrx', step_keeps_transmitInv hk htx h⟩

/-- Settles O40: K is 1, and both engines are at the reset state whatever byte RXREG takes. -/
theorem resetStateMeetsTheInvariant : Obligations.ResetStateMeetsTheInvariant :=
  ⟨Nat.one_pos, receiveInv_reset _ _, transmitInv_reset _⟩

end Sys2Proof.Machine

/-! ## Proofs: frames as bits (30_encoding.md) -/

namespace Sys2Proof

/-- Data symbol `d_i` stands `i` places below the start symbol's neighbour (30_encoding.md R70). -/
theorem frameWord_getLsbD (b : Byte) {i : Nat} (hi : i < 8) : (frameWord b).getLsbD (8 - i) = b.getLsbD i := by
  simp only [frameWord, BitVec.getLsbD_append]
  interval_cases i <;> simp

theorem frameData_getLsbD (w : BitVec 10) {i : Nat} (hi : i < 8) : (frameData w).getLsbD i = w.getLsbD (8 - i) := by
  simp only [frameData, BitVec.getLsbD_append]
  interval_cases i <;> simp

/-- The data symbols of the frame of `b` are the bits of `b`, each at its place (30_encoding.md R72). -/
theorem frameData_frameWord (b : Byte) : frameData (frameWord b) = b :=
  BitVec.eq_of_getLsbD_eq fun _ hi => (frameData_getLsbD _ hi).trans (frameWord_getLsbD b hi)

theorem frameStart_frameWord (b : Byte) : frameStart (frameWord b) = .low := by
  simp only [frameStart, frameWord, BitVec.getLsbD_append]
  rfl

theorem frameStop_frameWord (b : Byte) : frameStop (frameWord b) = .high := by
  simp only [frameStop, frameWord, BitVec.getLsbD_append]
  rfl

theorem decodeForm_detector_frameWord (d : Byte) : decodeForm (.frame10 .detector (frameWord d)) = .ok (.decode d) := by
  simp [decodeForm, frameStart_frameWord, frameData_frameWord]

theorem decodeEmitted_frameWord (b : Byte) : decodeEmitted (frameWord b) = .ok b := by
  simp [decodeEmitted, frameStart_frameWord, frameStop_frameWord, frameData_frameWord]

theorem decodeTrain_map_frameWord (buf : List Byte) : decodeTrain (buf.map frameWord) = .ok buf := by
  induction buf with
  | nil => rfl
  | cons b bs ih => simp [decodeTrain, decodeEmitted_frameWord, ih]

/-- Settles O42: a frame gives back its byte on either line and a train its bytes in order; the other forms carry their
operand as it is. -/
theorem decodingAnEncodedOperationGivesItBack : Obligations.DecodingAnEncodedOperationGivesItBack := by
  intro i hwf
  cases i with
  | decode d => exact decodeForm_detector_frameWord d
  | encode b => simp [encode, decodeForm, decodeEmitted_frameWord]
  | seq buf =>
    cases buf with
    | nil => simp [Instr.wellFormed] at hwf
    | cons b bs =>
      have htrain := decodeTrain_map_frameWord (b :: bs)
      rw [List.map_cons] at htrain
      simp [encode, decodeForm, htrain]
  | publish => rfl
  | read => rfl
  | write buf => rfl
  | reset => rfl

/-- Settles O43, by running the decoder on each word. -/
theorem frameWordsDecodeAsThePatternSays : Obligations.FrameWordsDecodeAsThePatternSays := by
  unfold Obligations.FrameWordsDecodeAsThePatternSays
  decide

end Sys2Proof

/-! ## Proofs: the byte a decode publishes (40_decode.md section 3) -/

namespace Sys2Proof.Machine

/-! The byte of eight levels. -/

theorem byteOfLevels_getLsbD (l : Nat → Level) {i : Nat} (hi : i < 8) :
    (byteOfLevels l).getLsbD i = bitOfLevel (l i) := by
  simp only [byteOfLevels, BitVec.getLsbD_append]
  interval_cases i <;> simp

/-- `acc` holds the levels `l 0` to `l i`, each at its place, and nothing else. -/
def HoldsLevels (l : Nat → Level) (i : Nat) (acc : Byte) : Prop :=
  ∀ j, acc.getLsbD j = (decide (j ≤ i) && bitOfLevel (l j))

theorem holdsLevels_zero (l : Nat → Level) : HoldsLevels l 0 (accumulate 0x00#8 0 (l 0)) := by
  intro j
  rw [accumulate_getLsbD, BitVec.getLsbD_zero]
  cases j <;> simp

theorem HoldsLevels.accumulate {l : Nat → Level} {i : Nat} {acc : Byte} (h : HoldsLevels l i acc) {i' : Fin 8}
    (hi : i'.val = i + 1) : HoldsLevels l (i + 1) (accumulate acc i' (l (i + 1))) := by
  intro j
  rw [accumulate_getLsbD, h j, hi]
  rcases Nat.lt_trichotomy j (i + 1) with hj | rfl | hj
  · simp [hj.ne, Nat.le_of_lt_succ hj, hj.le]
  · simp
  · simp [hj.ne', Nat.not_le.2 hj, Nat.not_le.2 (Nat.lt_of_succ_lt hj)]

theorem HoldsLevels.eq_byteOfLevels {l : Nat → Level} {acc : Byte} (h : HoldsLevels l 7 acc) : acc = byteOfLevels l := by
  refine BitVec.eq_of_getLsbD_eq fun i hi => ?_
  rw [byteOfLevels_getLsbD l hi, h i]
  simp [Nat.le_of_lt_succ hi]

/-! A whole decode, from its start edge. -/

section
variable {N : Nat} {s : State} {l : Nat → Level} (hk : 0 < s.tickScale) (hs : ReadyToReceive s) (h0 : l 0 = .low)
  (hl : LineShows l (decodeTicks s.tickScale) s) (hN : NoResetFor N s)
include hk h0 hl

theorem det_at_edge : detOf (currentInput s) s = .low :=
  (hl 0 (by unfold decodeTicks nSettle; omega) s (run_zero s)).trans h0

include hs hN

/-- After the tick of sample `i` the accumulator holds samples `0` to `i` (40_decode.md R93). -/
theorem run_holds_samples (i : Fin 8) (hi : nSettle s.tickScale + i.val * nUnit s.tickScale < N) :
    ∃ t a, run (nSettle s.tickScale + i.val * nUnit s.tickScale + 1) s = .next t
      ∧ InDecode s .wait i (nUnit s.tickScale) a t
      ∧ HoldsLevels (fun j => l (nSettle s.tickScale + j * nUnit s.tickScale)) i a := by
  have hd := det_at_edge hk h0 hl
  have hin (i : Fin 8) : nSettle s.tickScale + i.val * nUnit s.tickScale < decodeTicks s.tickScale :=
    Nat.add_lt_add_left (Nat.mul_lt_mul_of_pos_right i.isLt (nUnit_pos hk)) _
  induction i using Fin.induction with
  | zero =>
    obtain ⟨u, t, hu, ht, hdec⟩ := run_takes_sample hk hs hd hN 0 hi
    obtain ⟨u', hu', hdec'⟩ := run_in_settle hs hd hN (n := nSettle s.tickScale) (by unfold nSettle; omega) le_rfl
      (Nat.le_of_add_right_le hi.le)
    obtain rfl : u = u' := Host.Outcome.next.inj (hu.symm.trans (by simpa using hu'))
    rw [hl _ (hin 0) u hu, hdec'.acc] at hdec
    exact ⟨t, _, (run_succ_right hu).trans ht, hdec, holdsLevels_zero _⟩
  | succ i ih =>
    have hnext : nSettle s.tickScale + i.succ.val * nUnit s.tickScale
        = nSettle s.tickScale + i.castSucc.val * nUnit s.tickScale + 1 + (nUnit s.tickScale - 1) := by
      have := nUnit_pos hk
      rw [Fin.val_succ, Fin.val_castSucc, Nat.succ_mul]; omega
    obtain ⟨v, a, hv, hdec, ha⟩ := ih (by omega)
    obtain ⟨u', hu', hdec'⟩ := hdec.run_counts hN hv (by decide) (m := nUnit s.tickScale - 1)
      (Nat.sub_lt (nUnit_pos hk) Nat.one_pos) (hnext ▸ hi.le)
    obtain ⟨u, t, hu, ht, hdec''⟩ := run_takes_sample hk hs hd hN i.succ hi
    obtain rfl : u = u' := Host.Outcome.next.inj (hu.symm.trans (hnext ▸ hu'))
    rw [hl _ (hin i.succ) u hu, hdec'.acc] at hdec''
    exact ⟨t, _, (run_succ_right hu).trans ht, hdec'', ha.accumulate (i' := i.succ) rfl⟩

/-- The step at tick `tp` publishes the byte of the eight sampled levels. -/
theorem run_publishes_samples (hle : decodeTicks s.tickScale < N) :
    ∃ t, run (decodeTicks s.tickScale + 1) s = .next t ∧ t.rx.phase = .idle ∧ t.rx.armed = true
      ∧ t.rx.reg = byteOfLevels (fun i => l (nSettle s.tickScale + i * nUnit s.tickScale))
      ∧ receiveEvents t.log
        = (s.clock + decodeTicks s.tickScale, .rxDone t.rx.reg) :: (s.clock, .rxStart) :: receiveEvents s.log := by
  have hpos := nUnit_pos hk
  have htp : decodeTicks s.tickScale
      = nSettle s.tickScale + (7 : Fin 8).val * nUnit s.tickScale + 1 + (nUnit s.tickScale - 1) := by
    rw [decodeTicks, show (7 : Fin 8).val = 7 from rfl]; omega
  obtain ⟨v, a, hv, hdec, ha⟩ := run_holds_samples hk hs h0 hl hN 7 (by omega)
  obtain ⟨u, hu, hdec'⟩ := hdec.run_counts hN hv (by decide) (m := nUnit s.tickScale - 1)
    (Nat.sub_lt hpos Nat.one_pos) (htp ▸ hle.le)
  rw [← htp] at hu
  obtain ⟨t, ht, hp, harm, hreg, -, hev⟩ := hdec'.step_publishes (noReset_of_run hN hle hu) rfl (by omega) rfl
  obtain ⟨-, hclock⟩ := run_inputs_clock hu
  exact ⟨t, (run_succ_right hu).trans ht, hp, harm, hreg.trans ha.eq_byteOfLevels, by rw [hev, hclock, hreg]⟩

end

/-- From the edge on the engine meets the invariant, so that a masked engine is busy (10_state.md R45). -/
theorem busy_of_masked {s t : State} {n : Nat} (hk : 0 < s.tickScale) (hs : ReadyToReceive s)
    (hd : detOf (currentInput s) s = .low) (hr : (currentInput s).rst = false) (ht : run (n + 1) s = .next t)
    (ha : t.rx.armed = false) : rxBusy t.rx = true := by
  obtain ⟨u, hu, hdec⟩ := step_enters_decode hr hs hd
  have hinv : ReceiveInv u.tickScale u.rx := by
    have : 1 ≤ nSettle s.tickScale := by unfold nSettle; omega
    simp [ReceiveInv, hdec.tickScale, hdec.phase, hdec.armed, hdec.cnt, hdec.acc, hdec.bit, this]
  have hinv' := run_keeps_receiveInv (hdec.tickScale ▸ hk) hinv ((run_succ n hu).symm.trans ht)
  rw [rxBusy_eq_not_armed hinv', ha, Bool.not_false]

/-- Settles O11: through tick `tp` the decode is in flight, and the step at `tp` publishes the accumulated samples. -/
theorem decodePublishesTheEightSampledLevels : Obligations.DecodePublishesTheEightSampledLevels := by
  intro s l hk hs h0 hl hN
  refine ⟨fun n hle => ?inFlight, ?published⟩
  case inFlight =>
    cases n with
    | zero => exact ⟨s, run_zero s, rfl, by simp⟩
    | succ n =>
      have hd := det_at_edge hk h0 hl
      obtain ⟨t, p, b, c, a, ht, hdec⟩ :=
        run_in_decode hk hs hd hN (Nat.succ_pos n) hle (Nat.le_succ_of_le hle)
      have hr : (currentInput s).rst = false := noReset_of_run hN (Nat.succ_pos _) (run_zero s)
      exact ⟨t, ht, hdec.reg, fun _ => ⟨hdec.armed, busy_of_masked hk hs hd hr ht hdec.armed⟩⟩
  case published =>
    obtain ⟨t, ht, hp, ha, hreg, hev⟩ := run_publishes_samples hk hs h0 hl hN (Nat.lt_succ_self _)
    exact ⟨t, ht, hreg, ha, by simp [rxBusy, hp], hev⟩

/-! A frame on the line (70_reset_and_hazards.md section 3). -/

/-- The data symbols of the frame of `b` make up `b` (30_encoding.md R72, R77). -/
theorem byteOfLevels_frameSymbol (b : Byte) : byteOfLevels (fun i => frameSymbol b (i + 1)) = b := by
  refine BitVec.eq_of_getLsbD_eq fun i hi => ?_
  rw [byteOfLevels_getLsbD _ hi]
  simp [frameSymbol, Nat.succ_le_of_lt hi]

/-- Inside the drift band sample `i` falls into symbol `i + 1`, data symbol `d_i`, of a frame whose symbols are held `n`
ticks. -/
theorem sampled_symbol {k n i : Nat} (hlo : 16 * n ≤ 17 * nUnit k) (hhi : 17 * nUnit k < 18 * n) (hi : i < 8) :
    (nSettle k + i * nUnit k) / n = i + 1 := by
  unfold nUnit at *
  rw [nSettle, Nat.div_eq_iff (by omega)]
  interval_cases i <;> omega

/-- A frame with symbols of `n` ticks in the drift band is received as its byte. -/
theorem run_receives_frame {s : State} {b : Byte} {n : Nat} (hk : 0 < s.tickScale) (hs : ReadyToReceive s)
    (hlo : 16 * n ≤ 17 * nUnit s.tickScale) (hhi : 17 * nUnit s.tickScale < 18 * n)
    (hl : LineShows (fun j => frameSymbol b (j / n)) (decodeTicks s.tickScale) s)
    (hN : NoResetFor (decodeTicks s.tickScale + 1) s) :
    ∃ t, run (decodeTicks s.tickScale + 1) s = .next t ∧ t.rx.reg = b := by
  obtain ⟨t, ht, -, -, hreg, -⟩ := run_publishes_samples hk hs (by simp [frameSymbol]) hl hN (Nat.lt_succ_self _)
  refine ⟨t, ht, hreg.trans (Eq.trans ?_ (byteOfLevels_frameSymbol b))⟩
  refine BitVec.eq_of_getLsbD_eq fun i hi => ?_
  rw [byteOfLevels_getLsbD _ hi, byteOfLevels_getLsbD _ hi, sampled_symbol hlo hhi hi]

/-- Settles O46: inside the band every sample falls into its own data symbol. -/
theorem clockDriftInsideTheBandDecodesRight : Obligations.ClockDriftInsideTheBandDecodesRight :=
  fun _ _ _ hk hs hlo hhi hl hN => run_receives_frame hk hs hlo hhi hl hN

end Sys2Proof.Machine

/-! ## Proofs: a whole write, byte by byte (42_sequencer.md section 1)

`TxAfter` follows the elements of one frame that no reset cuts short. A write needs the events too, and a frame that is
watched only as long as its decode lasts, so here the events are kept and the reset-free ticks may be any number. -/

namespace Sys2Proof.Machine

/-- After `n` ticks from `s`, K being the same, the transmit elements are `tx` and the transmit engine has emitted `evs`,
newest first. -/
def SendsAfter (s : State) (n : Nat) (tx : Transmit) (evs : List (Nat × Event)) : Prop :=
  ∃ t, run n s = .next t ∧ t.tickScale = s.tickScale ∧ t.tx = tx ∧ transmitEvents t.log = evs ++ transmitEvents s.log

theorem sendsAfter_zero (s : State) : SendsAfter s 0 s.tx [] := ⟨s, run_zero s, rfl, rfl, rfl⟩

section
variable {N n : Nat} {s : State} {tx tx' : Transmit} {evs : List (Nat × Event)} {es : List Event}

theorem SendsAfter.txAfter (h : SendsAfter s n tx evs) : TxAfter s n tx := by
  obtain ⟨t, ht, hk, htx, -⟩ := h
  exact ⟨t, ht, hk, htx⟩

variable (hN : NoResetFor N s) (h : SendsAfter s n tx evs)
include hN h

theorem SendsAfter.succ (hn : n < N) (hnext : txStep s.tickScale (inputAfter s n).wr tx = (tx', es)) :
    SendsAfter s (n + 1) tx' ((es.map fun e => (s.clock + n, e)).reverse ++ evs) := by
  obtain ⟨u, hu, hk, rfl, hev⟩ := h
  obtain ⟨-, hclock⟩ := run_inputs_clock hu
  obtain ⟨t, ht⟩ := tickWith_total (currentInput u) u
  have hr := noReset_of_run hN hn hu
  obtain ⟨hk', htx, -⟩ := tickWith_elements hr ht
  have hlog := tickWith_transmitEvents hr ht
  rw [hk, currentInput_of_run hu, hnext] at htx hlog
  exact ⟨t, (run_succ_right hu).trans ht, hk'.trans hk, htx, by rw [hlog, hev, hclock, List.append_assoc]⟩

/-- While TX_CNT counts down nothing is emitted. -/
theorem SendsAfter.holds (hp : tx.phase ≠ .idle) {m : Nat} (hm : m < tx.cnt) (hle : n + m ≤ N) :
    SendsAfter s (n + m) { tx with cnt := tx.cnt - m } evs := by
  induction m with
  | zero => exact h
  | succ m ih =>
    exact (ih (Nat.lt_of_succ_lt hm) (Nat.le_of_succ_le hle)).succ hN hle
      (txStep_of_counting _ _ (tx := { tx with cnt := tx.cnt - m }) hp (by simp; omega))

/-- The tick that ends a symbol or the cooldown comes TX_CNT ticks on. -/
theorem SendsAfter.ends (hp : tx.phase ≠ .idle) (hc : 0 < tx.cnt) (hle : n + tx.cnt ≤ N)
    (hnext : txStep s.tickScale none { tx with cnt := 1 } = (tx', es)) :
    SendsAfter s (n + tx.cnt) tx' ((es.map fun e => (s.clock + (n + tx.cnt - 1), e)).reverse ++ evs) := by
  obtain ⟨c, hcnt⟩ := Nat.exists_eq_add_of_lt hc
  have hlast := h.holds hN hp (m := c) (by omega) (by omega)
  rw [show tx.cnt - c = 1 by omega] at hlast
  rw [show n + tx.cnt = n + c + 1 by omega, Nat.add_sub_cancel]
  exact hlast.succ hN (by omega) ((txStep_of_busy _ _ (tx := { tx with cnt := 1 }) hp).trans hnext)

/-- A start symbol or data symbol is ended by ENCODE, which emits nothing. -/
theorem SendsAfter.encodes (hp : tx.phase = .start ∨ tx.phase = .data) (hc : 0 < tx.cnt) (hle : n + tx.cnt ≤ N)
    (hnext : encodeTick s.tickScale tx.cur { tx with cnt := 1 } = tx') : SendsAfter s (n + tx.cnt) tx' evs := by
  have hend : txStep s.tickScale none { tx with cnt := 1 } = (tx', []) := hnext ▸ txStep_of_encoding _ _ hp
  exact h.ends hN (by rcases hp with hp | hp <;> simp [hp]) hc hle hend

end

/-! One period of a write (30_encoding.md R75), from the tick `n` in which a start symbol begins. -/

section
variable {N n : Nat} {s : State} {tx : Transmit} {evs : List (Nat × Event)} (hk : 0 < s.tickScale)
  (hN : NoResetFor N s) (h : SendsAfter s n tx evs) (hp : tx.phase = .start) (hc : tx.cnt = nUnit s.tickScale)
include hk hN h hp hc

theorem SendsAfter.data (i : Fin 8) (hle : n + (1 + i.val) * nUnit s.tickScale ≤ N) :
    SendsAfter s (n + (1 + i.val) * nUnit s.tickScale) (tx.driveData s.tickScale tx.cur i) evs := by
  induction i using Fin.induction with
  | zero =>
    have hticks : n + (1 + (0 : Fin 8).val) * nUnit s.tickScale = n + tx.cnt := by simp [hc]
    rw [hticks] at hle ⊢
    exact h.encodes hN (.inl hp) (hc ▸ nUnit_pos hk) hle (encodeTick_of_started _ _ hp le_rfl)
  | succ i ih =>
    have hticks : n + (1 + i.succ.val) * nUnit s.tickScale
        = n + (1 + i.castSucc.val) * nUnit s.tickScale + nUnit s.tickScale := by
      rw [Fin.val_succ, Fin.val_castSucc, ← Nat.add_assoc 1, Nat.succ_mul, Nat.add_assoc]
    rw [hticks] at hle ⊢
    exact (ih (Nat.le_of_add_right_le hle)).encodes hN (.inr rfl) (nUnit_pos hk) hle
      (encodeTick_of_next _ _ (j := i.succ) rfl le_rfl rfl)

theorem SendsAfter.stop (hle : n + 9 * nUnit s.tickScale ≤ N) :
    SendsAfter s (n + 9 * nUnit s.tickScale)
      ((tx.driveData s.tickScale tx.cur 7).driveStop s.tickScale) evs := by
  have hticks : n + 9 * nUnit s.tickScale = n + (1 + (7 : Fin 8).val) * nUnit s.tickScale + nUnit s.tickScale := by
    rw [Nat.add_assoc, ← Nat.succ_mul]; rfl
  rw [hticks] at hle ⊢
  exact (h.data hk hN hp hc 7 (Nat.le_of_add_right_le hle)).encodes hN (.inr rfl) (nUnit_pos hk) hle
    (encodeTick_of_last _ _ rfl le_rfl rfl)

/-- TX_SENT is emitted in the tick that ends the stop symbol (42_sequencer.md R127). -/
theorem SendsAfter.cooldown (hle : n + 10 * nUnit s.tickScale ≤ N) :
    SendsAfter s (n + 10 * nUnit s.tickScale)
      (((tx.driveData s.tickScale tx.cur 7).driveStop s.tickScale).startCooldown s.tickScale)
      ((s.clock + (n + 10 * nUnit s.tickScale - 1), .txSent tx.cur) :: evs) := by
  have hticks : n + 10 * nUnit s.tickScale = n + 9 * nUnit s.tickScale + nUnit s.tickScale := by
    rw [Nat.add_assoc, ← Nat.succ_mul]
  rw [hticks] at hle ⊢
  exact (h.stop hk hN hp hc (Nat.le_of_add_right_le hle)).ends hN (by simp) (nUnit_pos hk) hle
    (txStep_of_stopped _ _ rfl le_rfl)

/-- The end of the period is the tick that ends the cooldown. -/
theorem SendsAfter.period {tx' : Transmit} {es : List Event} (hle : n + bytePeriod s.tickScale ≤ N)
    (hnext : txStep s.tickScale none { ((tx.driveData s.tickScale tx.cur 7).driveStop s.tickScale).startCooldown
      s.tickScale with cnt := 1 } = (tx', es)) :
    SendsAfter s (n + bytePeriod s.tickScale) tx'
      ((es.map fun e => (s.clock + (n + bytePeriod s.tickScale - 1), e)).reverse
        ++ (s.clock + (n + 10 * nUnit s.tickScale - 1), .txSent tx.cur) :: evs) := by
  have hpos : 0 < nCooldown s.tickScale := Nat.mul_pos (by decide) hk
  rw [bytePeriod, ← Nat.add_assoc] at hle ⊢
  exact (h.cooldown hk hN hp hc (Nat.le_of_add_right_le hle)).ends hN (by simp) hpos hle hnext

end

/-! The line in every tick of a period. -/

/-- The engine begins the start symbol of `b`, byte `i` of `buf`. -/
structure BeginsFrame (k : Nat) (buf : List Byte) (i : Nat) (b : Byte) (tx : Transmit) : Prop where
  phase : tx.phase = .start
  cnt : tx.cnt = nUnit k
  emit : tx.emit = .low
  buf : tx.buf = buf
  idx : tx.idx = i
  cur : tx.cur = b

/-- The engine is busy with `b`, byte `i` of `buf`, and drives the line to `l`. -/
structure Sending (buf : List Byte) (i : Nat) (b : Byte) (l : Level) (tx : Transmit) : Prop where
  busy : tx.phase ≠ .idle
  buf : tx.buf = buf
  idx : tx.idx = i
  cur : tx.cur = b
  emit : tx.emit = l

theorem frameSymbol_succ (b : Byte) (i : Fin 8) : frameSymbol b (i.val + 1) = dataSymbol b i := by
  simp [frameSymbol, dataSymbol]

/-- The stop symbol, and the line at rest after it (30_encoding.md R73). -/
theorem frameSymbol_of_ge (b : Byte) {j : Nat} (hj : 9 ≤ j) : frameSymbol b j = .high := by
  rw [frameSymbol, if_neg (by omega), if_neg (by omega)]

/-- In tick `m` of its period the byte's frame shows symbol `m / N_UNIT`, and then the cooldown holds the line. -/
theorem SendsAfter.shows {N n i m : Nat} {s : State} {tx : Transmit} {evs : List (Nat × Event)} {buf : List Byte}
    {b : Byte} (hk : 0 < s.tickScale) (hN : NoResetFor N s) (h : SendsAfter s n tx evs)
    (hb : BeginsFrame s.tickScale buf i b tx) (hm : m < bytePeriod s.tickScale) (hle : n + m ≤ N) :
    ∃ tx', TxAfter s (n + m) tx' ∧ Sending buf i b (frameSymbol b (m / nUnit s.tickScale)) tx' := by
  obtain ⟨hp, hc, hemit, hbuf, hidx, hcur⟩ := hb
  have hmod : m % nUnit s.tickScale < nUnit s.tickScale := Nat.mod_lt m (nUnit_pos hk)
  have hsplit := Nat.div_add_mod' m (nUnit s.tickScale)
  rcases Nat.lt_or_ge (m / nUnit s.tickScale) 10 with hq | hq
  · generalize m / nUnit s.tickScale = q at hq hsplit ⊢
    rw [← hsplit, ← Nat.add_assoc] at hle ⊢
    rcases Nat.eq_zero_or_pos q with rfl | hpos
    · rw [Nat.zero_mul, Nat.add_zero] at hle ⊢
      have hhold := h.holds hN (by simp [hp]) (hc ▸ hmod) hle
      exact ⟨_, hhold.txAfter, by simp [hp], hbuf, hidx, hcur, hemit⟩
    · rcases Nat.lt_or_ge q 9 with hq9 | hq9
      · obtain ⟨j, rfl⟩ : ∃ j : Fin 8, q = 1 + j.val := ⟨⟨q - 1, by omega⟩, by simp; omega⟩
        have hhold := (h.data hk hN hp hc j (Nat.le_of_add_right_le hle)).holds hN (by simp) hmod hle
        exact ⟨_, hhold.txAfter, by simp, hbuf, hidx, hcur, by rw [Nat.add_comm 1, frameSymbol_succ, ← hcur]; rfl⟩
      · obtain rfl : q = 9 := by omega
        have hhold := (h.stop hk hN hp hc (Nat.le_of_add_right_le hle)).holds hN (by simp) hmod hle
        exact ⟨_, hhold.txAfter, by simp, hbuf, hidx, hcur, (frameSymbol_of_ge b (by decide)).symm⟩
  · have hcool : 10 * nUnit s.tickScale ≤ m := (Nat.le_div_iff_mul_le (nUnit_pos hk)).1 hq
    obtain ⟨c, rfl⟩ := Nat.exists_eq_add_of_le hcool
    rw [← Nat.add_assoc] at hle ⊢
    have hhold := (h.cooldown hk hN hp hc (Nat.le_of_add_right_le hle)).holds hN (by simp)
      (Nat.lt_of_add_lt_add_left hm) hle
    exact ⟨_, hhold.txAfter, by simp, hbuf, hidx, hcur, (frameSymbol_of_ge b (by omega)).symm⟩

/-! The whole buffer. -/

/-- The TX_SENT events of `buf`, newest first, for a write accepted in `s`: each in the last tick of its frame. -/
def sentEvents (s : State) (buf : List Byte) : List (Nat × Event) :=
  (buf.zipIdx.map fun p =>
    (s.clock + p.2 * bytePeriod s.tickScale + 10 * nUnit s.tickScale, Event.txSent p.1)).reverse

/-- The frame of byte `i` begins in tick `1 + i * P`, and TX_SENT comes in its tick `10 * N_UNIT - 1`. -/
theorem sentEvents_take_succ (s : State) {buf : List Byte} {i : Nat} {b : Byte} (hb : buf[i]? = some b) :
    sentEvents s (buf.take (i + 1))
      = (s.clock + (1 + i * bytePeriod s.tickScale + 10 * nUnit s.tickScale - 1), .txSent b)
        :: sentEvents s (buf.take i) := by
  obtain ⟨hlt, -⟩ := List.getElem?_eq_some_iff.1 hb
  have hstamp : s.clock + (1 + i * bytePeriod s.tickScale + 10 * nUnit s.tickScale - 1)
      = s.clock + i * bytePeriod s.tickScale + 10 * nUnit s.tickScale := by omega
  simp [sentEvents, List.take_add_one, hb, List.zipIdx_append, hlt.le, hstamp]

section
variable {N : Nat} {s : State} {buf : List Byte}

/-- The tick of the write begins the frame of the first byte. -/
theorem write_begins_frame {b : Byte} {bs : List Byte} (hN : NoResetFor N s) (hpos : 0 < N)
    (hp : s.tx.phase = .idle) (hw : (currentInput s).wr = some (b :: bs)) :
    ∃ tx, SendsAfter s 1 tx [] ∧ BeginsFrame s.tickScale (b :: bs) 0 b tx := by
  rw [currentInput_eq] at hw
  exact ⟨_, (sendsAfter_zero s).succ hN hpos (hw ▸ txStep_of_accepted _ b bs hp), rfl, rfl, rfl, rfl, rfl, rfl⟩

variable (hk : 0 < s.tickScale) (hN : NoResetFor (buf.length * bytePeriod s.tickScale + 1) s)
  (hp : s.tx.phase = .idle) (hw : (currentInput s).wr = some buf)
include hk hN hp hw

/-- The frame of byte `i` begins `i` periods after the first one. -/
theorem write_begins_byte (i : Nat) {b : Byte} (hb : buf[i]? = some b) :
    ∃ tx, SendsAfter s (1 + i * bytePeriod s.tickScale) tx (sentEvents s (buf.take i))
      ∧ BeginsFrame s.tickScale buf i b tx := by
  induction i generalizing b with
  | zero =>
    obtain ⟨bs, rfl⟩ : ∃ bs, buf = b :: bs := by
      cases buf with
      | nil => simp at hb
      | cons c cs => exact ⟨cs, by simpa using hb⟩
    rw [Nat.zero_mul, Nat.add_zero]
    exact write_begins_frame hN (Nat.succ_pos _) hp hw
  | succ i ih =>
    obtain ⟨hlt, -⟩ := List.getElem?_eq_some_iff.1 hb
    have hprev : buf[i]? = some buf[i] := List.getElem?_eq_getElem (Nat.lt_of_succ_lt hlt)
    obtain ⟨tx, hs, hbeg⟩ := ih hprev
    obtain ⟨hph, hc, -, rfl, rfl, hcur⟩ := hbeg
    have hle : (tx.idx + 1) * bytePeriod s.tickScale ≤ tx.buf.length * bytePeriod s.tickScale :=
      Nat.mul_le_mul_right _ hlt.le
    rw [Nat.succ_mul] at hle
    have hend := hs.period hk hN hph hc (by omega) (txStep_of_next_byte _ _ rfl le_rfl hb)
    rw [Nat.succ_mul, ← Nat.add_assoc, sentEvents_take_succ s hprev, ← hcur]
    exact ⟨_, hend, rfl, rfl, rfl, rfl, rfl, rfl⟩

/-- The write completes in the last tick of its last period (42_sequencer.md R129). -/
theorem write_completes (hne : buf ≠ []) :
    ∃ tx, SendsAfter s (buf.length * bytePeriod s.tickScale + 1) tx
        ((s.clock + buf.length * bytePeriod s.tickScale, .wrDone buf.length) :: sentEvents s buf)
      ∧ tx.phase = .idle ∧ tx.emit = .high := by
  obtain ⟨i, hlen⟩ := Nat.exists_eq_add_one_of_ne_zero (List.length_pos_iff.2 hne).ne'
  have hlast : buf[i]? = some buf[i] := List.getElem?_eq_getElem (by omega)
  obtain ⟨tx, hs, hph, hc, -, rfl, rfl, hcur⟩ := write_begins_byte hk hN hp hw i hlast
  have hticks : tx.buf.length * bytePeriod s.tickScale + 1
      = 1 + tx.idx * bytePeriod s.tickScale + bytePeriod s.tickScale := by
    rw [hlen, Nat.succ_mul]; omega
  have hend := hs.period hk hN hph hc hticks.ge (txStep_of_completed _ _ rfl le_rfl hlen.le)
  rw [hcur, ← sentEvents_take_succ s hlast, ← hlen, List.take_length, ← hticks,
    Nat.add_sub_cancel] at hend
  exact ⟨_, hend, rfl, rfl⟩

end

/-- Settles O23: byte `j`'s period begins after `j` periods, in each of its ticks the line shows its frame and then rests,
and the end of the last one completes the write. -/
theorem writeSendsEveryByteInOrderThenCompletes : Obligations.WriteSendsEveryByteInOrderThenCompletes := by
  rintro s buf ⟨hk, -, -⟩ hp hw hne hN
  refine ⟨fun j b m hb hm => ?period, ?completed⟩
  case period =>
    obtain ⟨hlt, -⟩ := List.getElem?_eq_some_iff.1 hb
    have hle : (j + 1) * bytePeriod s.tickScale ≤ buf.length * bytePeriod s.tickScale := Nat.mul_le_mul_right _ hlt
    rw [Nat.succ_mul] at hle
    obtain ⟨tx, hs, hbeg⟩ := write_begins_byte hk hN hp hw j hb
    obtain ⟨_, ⟨t, ht, -, rfl⟩, hsend⟩ := hs.shows hk hN hbeg hm (by omega)
    exact ⟨t, ht, by simpa [wrReady] using hsend.busy, hsend.buf, hsend.idx, hsend.cur, hsend.emit⟩
  case completed =>
    obtain ⟨_, ⟨t, ht, -, rfl, hev⟩, hidle, hhigh⟩ := write_completes hk hN hp hw hne
    exact ⟨t, ht, (wrReady_iff _).2 hidle, hhigh, hev⟩

end Sys2Proof.Machine

/-! ## Proofs: the round trip, in loopback and over a matched link (41_encode.md section 3, 44_block_step.md R159) -/

namespace Sys2Proof.Machine

/-! The line a write puts on a detector, from the tick of the write on. -/

/-- The line at rest in the tick of the write, then the frame of `b`. -/
def frameLine (k : Nat) (b : Byte) : Nat → Level
  | 0 => .high
  | j + 1 => frameSymbol b (j / nUnit k)

/-- A premise about the line holds of the rest of the run. -/
theorem LineShows.tail {l : Nat → Level} {n : Nat} {s t : State} (h : LineShows l (n + 1) s) (ht : step s = .next t) :
    LineShows (fun j => l (j + 1)) n t :=
  fun j hj u hu => h (j + 1) (Nat.succ_lt_succ hj) u ((run_succ j ht).trans hu)

theorem noResetFor_tail {n : Nat} {s t : State} (h : NoResetFor (n + 1) s) (ht : step s = .next t) :
    NoResetFor n t := by
  intro j hj
  rw [inputAfter_of_run ((run_one s).trans ht), Nat.add_comm]
  exact h (j + 1) (Nat.succ_lt_succ hj)

/-- An idle armed receiver whose line rests for one tick and then shows the frame of `b` receives `b`. -/
theorem run_receives_frameLine {s : State} {b : Byte} (hk : 0 < s.tickScale) (hp : s.rx.phase = .idle)
    (ha : s.rx.armed = true) (hl : LineShows (frameLine s.tickScale b) (decodeTicks s.tickScale + 1) s)
    (hN : NoResetFor (decodeTicks s.tickScale + 2) s) :
    ∃ t, run (decodeTicks s.tickScale + 2) s = .next t ∧ t.rx.reg = b := by
  obtain ⟨u, hu⟩ := tickWith_total (currentInput s) s
  have hr : (currentInput s).rst = false := noReset_of_run hN (Nat.succ_pos _) (run_zero s)
  have hrest : detOf (currentInput s) s = .high := hl 0 (Nat.succ_pos _) s (run_zero s)
  obtain ⟨hk', -, hrx, -⟩ := tickWith_elements hr hu
  have hready : ReadyToReceive u := by
    rw [ReadyToReceive, hrx, rxStep_eq, hrest, decodeTick_of_no_edge _ hp (by simp [edge])]
    exact ⟨hp, ha, rfl⟩
  have hpos := nUnit_pos hk
  have hl' := hl.tail hu
  have hN' := noResetFor_tail hN hu
  rw [← hk'] at hk hpos hl' hN'
  obtain ⟨t, ht, hreg⟩ := run_receives_frame hk hready (n := nUnit u.tickScale) (by omega) (by omega) hl' hN'
  rw [hk'] at ht
  exact ⟨t, (run_succ _ hu).trans ht, hreg⟩

/-- EMIT follows the frame line through the decode that the frame starts. -/
theorem write_drives_frameLine {N : Nat} {s : State} {b : Byte} {bs : List Byte} (hi : Inv s)
    (hp : s.tx.phase = .idle) (hw : (currentInput s).wr = some (b :: bs)) (hN : NoResetFor N s) {n : Nat}
    (hn : n ≤ decodeTicks s.tickScale + 1) (hle : n ≤ N) :
    ∃ tx, TxAfter s n tx ∧ tx.emit = frameLine s.tickScale b n := by
  obtain ⟨hk, -, -, hhigh, -⟩ := hi
  cases n with
  | zero => exact ⟨_, txAfter_zero s, hhigh (.inl hp)⟩
  | succ m =>
    obtain ⟨tx, hs, hb⟩ := write_begins_frame hN (Nat.zero_lt_of_lt hle) hp hw
    have hm : m < bytePeriod s.tickScale := by
      unfold decodeTicks nSettle nUnit at hn
      unfold bytePeriod nUnit nCooldown
      omega
    obtain ⟨tx', htx, hsend⟩ := hs.shows hk hN hb hm (by omega)
    exact ⟨tx', Nat.add_comm 1 m ▸ htx, hsend.emit⟩

/-- Settles O44: in loopback the detector sees the frame line that the write drives. -/
theorem loopbackReceivesTheByteWritten : Obligations.LoopbackReceivesTheByteWritten := by
  rintro s b bs hi ⟨htx, hrx⟩ hw hloop hN
  have hl : LineShows (frameLine s.tickScale b) (decodeTicks s.tickScale + 1) s := by
    intro j hj u hu
    obtain ⟨_, ⟨t, ht, -, rfl⟩, hemit⟩ := write_drives_frameLine hi htx hw hN hj.le (by omega)
    obtain rfl : u = t := Host.Outcome.next.inj (hu.symm.trans ht)
    rw [detOf, currentInput_of_run hu, hloop j (by omega), detLevel_loopback, hemit]
  obtain ⟨hk, ⟨harm, -⟩, -⟩ := hi
  exact run_receives_frameLine hk hrx (harm.2 hrx) hl hN

/-! Runs of a link. -/

theorem tickWith_inputs_clock {inp : Input} {s t : State} (h : tickWith inp s = .next t) :
    t.inputs = s.inputs.tail ∧ t.clock = s.clock + 1 := by
  obtain ⟨u, hu⟩ := runAll_total (selected inp s) s
  rw [tickWith_eq hu] at h
  cases h
  simp

/-- A link's tick is one tick of each block, each seeing the other's emitter. -/
theorem linkStep_eq_next {l l' : Link} : linkStep l = .next l'
    ↔ tickWith (inputSeeing l.b.tx.emit l.a) l.a = .next l'.a ∧ tickWith (inputSeeing l.a.tx.emit l.b) l.b = .next l'.b := by
  obtain ⟨a, ha⟩ := tickWith_total (inputSeeing l.b.tx.emit l.a) l.a
  obtain ⟨b, hb⟩ := tickWith_total (inputSeeing l.a.tx.emit l.b) l.b
  cases l'
  simp [linkStep, ha, hb]

theorem linkStep_total (l : Link) : ∃ l', linkStep l = .next l' := by
  obtain ⟨a, ha⟩ := tickWith_total (inputSeeing l.b.tx.emit l.a) l.a
  obtain ⟨b, hb⟩ := tickWith_total (inputSeeing l.a.tx.emit l.b) l.b
  exact ⟨⟨a, b⟩, linkStep_eq_next.2 ⟨ha, hb⟩⟩

theorem linkRun_total (n : Nat) (l : Link) : ∃ l', linkRun n l = .next l' := by
  induction n generalizing l with
  | zero => exact ⟨l, rfl⟩
  | succ n ih =>
    obtain ⟨m, hm⟩ := linkStep_total l
    simpa [linkRun, hm] using ih m

theorem linkRun_succ_right {n : Nat} {l m : Link} (h : linkRun n l = .next m) : linkRun (n + 1) l = linkStep m := by
  induction n generalizing l with
  | zero =>
    obtain rfl : l = m := Host.Outcome.next.inj h
    obtain ⟨l', hl'⟩ := linkStep_total l
    simp [linkRun, hl']
  | succ n ih =>
    obtain ⟨l', hl'⟩ := linkStep_total l
    simp only [linkRun, hl'] at h
    rw [linkRun, hl']
    exact ih h

@[simp] theorem inputSeeing_rst (l : Level) (s : State) : (inputSeeing l s).rst = (currentInput s).rst := rfl
@[simp] theorem inputSeeing_wr (l : Level) (s : State) : (inputSeeing l s).wr = (currentInput s).wr := rfl

theorem detOf_inputSeeing (l : Level) (s : State) : detOf (inputSeeing l s) s = l := rfl

/-- The state `s` with its next `n` inputs listed and its line driven to the waveform `w`. -/
def State.withLine (w : Nat → Level) (n : Nat) (s : State) : State :=
  { s with inputs := (List.range n).map fun j => { inputAfter s j with det := .level (w j) } }

section
variable (w : Nat → Level) {n : Nat} (s : State)

theorem withLine_inputAfter {j : Nat} (hj : j < n) :
    inputAfter (s.withLine w n) j = { inputAfter s j with det := .level (w j) } := by
  rw [inputAfter, State.withLine]
  simp [hj]

theorem withLine_lineShows : LineShows w n (s.withLine w n) :=
  lineShows_of_inputs fun j hj => by rw [withLine_inputAfter w s hj]

theorem withLine_noReset (h : NoResetFor n s) : NoResetFor n (s.withLine w n) := by
  intro j hj
  rw [withLine_inputAfter w s hj]
  exact h j hj

end

section
variable {N n : Nat} {l m : Link} (h : linkRun n l = .next m)
include h

/-- But for the line, the inputs the blocks of a link meet are those each would meet alone. -/
theorem linkRun_currentInput : currentInput m.a = inputAfter l.a n ∧ currentInput m.b = inputAfter l.b n := by
  suffices (m.a.inputs = l.a.inputs.drop n ∧ m.a.clock = l.a.clock + n)
      ∧ m.b.inputs = l.b.inputs.drop n ∧ m.b.clock = l.b.clock + n by
    obtain ⟨⟨hia, hca⟩, hib, hcb⟩ := this
    simp [currentInput_eq, inputAfter, hia, hca, hib, hcb]
  induction n generalizing m with
  | zero => cases h; simp
  | succ n ih =>
    obtain ⟨m', hm'⟩ := linkRun_total n l
    obtain ⟨⟨hia, hca⟩, hib, hcb⟩ := ih hm'
    obtain ⟨ha, hb⟩ := linkStep_eq_next.1 ((linkRun_succ_right hm').symm.trans h)
    obtain ⟨hia', hca'⟩ := tickWith_inputs_clock ha
    obtain ⟨hib', hcb'⟩ := tickWith_inputs_clock hb
    simp [hia, hca, hib, hcb, hia', hca', hib', hcb', Nat.add_assoc]

/-- The transmit engine of a linked block does what it does alone: it does not look at the line. -/
theorem linkRun_transmit (hN : NoResetFor N l.a) (hn : n ≤ N) {u : State} (hu : run n l.a = .next u) :
    m.a.tickScale = u.tickScale ∧ m.a.tx = u.tx := by
  induction n generalizing m u with
  | zero => cases h; cases hu; exact ⟨rfl, rfl⟩
  | succ n ih =>
    obtain ⟨m', hm'⟩ := linkRun_total n l
    obtain ⟨u', hu'⟩ := run_total n l.a
    obtain ⟨hk, htx⟩ := ih hm' (Nat.le_of_succ_le hn) hu'
    obtain ⟨hma, -⟩ := linkStep_eq_next.1 ((linkRun_succ_right hm').symm.trans h)
    have hin : currentInput m'.a = currentInput u' := (linkRun_currentInput hm').1.trans (currentInput_of_run hu').symm
    have hr := noReset_of_run hN hn hu'
    obtain ⟨hk₁, htx₁, -⟩ := tickWith_elements (by rw [inputSeeing_rst, hin, hr]) hma
    obtain ⟨hk₂, htx₂, -⟩ := tickWith_elements hr ((run_succ_right hu').symm.trans hu)
    exact ⟨by rw [hk₁, hk₂, hk], by rw [htx₁, htx₂, inputSeeing_wr, hin, hk, htx]⟩

/-- The receive engine of a linked block does what it does with its line driven as the other block drives EMIT. -/
theorem linkRun_receive {w : Nat → Level} (hN : NoResetFor N l.b)
    (hw : ∀ j < N, ∀ m, linkRun j l = .next m → m.a.tx.emit = w j) (hn : n ≤ N) {u : State}
    (hu : run n (l.b.withLine w N) = .next u) : m.b.tickScale = u.tickScale ∧ m.b.rx = u.rx := by
  induction n generalizing m u with
  | zero => cases h; cases hu; exact ⟨rfl, rfl⟩
  | succ n ih =>
    obtain ⟨m', hm'⟩ := linkRun_total n l
    obtain ⟨u', hu'⟩ := run_total n (l.b.withLine w N)
    obtain ⟨hk, hrx⟩ := ih hm' (Nat.le_of_succ_le hn) hu'
    obtain ⟨-, hmb⟩ := linkStep_eq_next.1 ((linkRun_succ_right hm').symm.trans h)
    have hr : (currentInput m'.b).rst = false := by rw [(linkRun_currentInput hm').2]; exact hN n hn
    have hr' : (currentInput u').rst = false := noReset_of_run (withLine_noReset w l.b hN) hn hu'
    obtain ⟨hk₁, -, hrx₁, -⟩ := tickWith_elements ((inputSeeing_rst _ _).trans hr) hmb
    obtain ⟨hk₂, -, hrx₂, -⟩ := tickWith_elements hr' ((run_succ_right hu').symm.trans hu)
    refine ⟨by rw [hk₁, hk₂, hk], ?_⟩
    rw [hrx₁, hrx₂, detOf_inputSeeing, hw n hn m' hm', withLine_lineShows w l.b n hn u' hu', hk, hrx]

end

/-- Settles O45: the one end's EMIT follows the frame line as it would alone, and the other end receives it as a block
with its line driven so. -/
theorem matchedLinkDeliversTheByteWritten : Obligations.MatchedLinkDeliversTheByteWritten := by
  intro l b bs hia hib hk hidle hrx hw hNa hNb
  obtain ⟨hkb, ⟨harm, -⟩, -⟩ := hib
  rw [hk] at hNa hNb ⊢
  have hemit (j : Nat) (hj : j < decodeTicks l.b.tickScale + 2) (m : Link) (hm : linkRun j l = .next m) :
      m.a.tx.emit = frameLine l.b.tickScale b j := by
    obtain ⟨_, ⟨u, hu, -, rfl⟩, hemit⟩ :=
      write_drives_frameLine hia hidle hw hNa (Nat.le_of_lt_succ (hk ▸ hj)) hj.le
    rw [(linkRun_transmit hm hNa hj.le hu).2, hemit, hk]
  obtain ⟨t, ht, hreg⟩ := run_receives_frameLine (b := b)
    (s := l.b.withLine (frameLine l.b.tickScale b) (decodeTicks l.b.tickScale + 2)) hkb hrx (harm.2 hrx)
    (fun j hj => withLine_lineShows _ l.b j (Nat.lt_succ_of_lt hj)) (withLine_noReset _ l.b hNb)
  obtain ⟨m, hm⟩ := linkRun_total (decodeTicks l.b.tickScale + 2) l
  obtain ⟨-, hrx'⟩ := linkRun_receive hm hNb hemit le_rfl ht
  exact ⟨m, hm, hrx' ▸ hreg⟩

end Sys2Proof.Machine

/-! ## Proofs: single ticks of the receive engine (40_decode.md sections 3 and 5, 20_memory.md section 3) -/

namespace Sys2Proof.Machine

theorem exec_decode (d : Byte) (s : State) :
    exec (.decode d) s
      = .next ((s.setRx (decodeTick s.tickScale (levelPresented d s.rx) s.rx).1).emitAll
          (decodeTick s.tickScale (levelPresented d s.rx) s.rx).2) := rfl

theorem exec_publish_of_not_due {s : State} (h : ¬ publishDue s.rx = true) : exec .publish s = .next s := if_neg h

/-- The tracking of DET_PREV is the tick's, not the engine's (40_decode.md R105). -/
theorem decodeTick_detPrev (k : Nat) (det : Level) (rx : Receive) : (decodeTick k det rx).1.detPrev = rx.detPrev := by
  rcases decodeTick_cases k det rx with ⟨-, -, h⟩ | ⟨-, -, h⟩ | ⟨-, -, h⟩ | ⟨-, -, h⟩ | ⟨-, -, _, h⟩ | ⟨-, h⟩ <;> simp [h]

theorem decodeTick_reg_of_not_publishDue (k : Nat) (det : Level) {rx : Receive} (hp : ¬ publishDue rx = true) :
    (decodeTick k det rx).1.reg = rx.reg := by
  have h := rxStep_reg_of_not_publishDue k det hp
  rwa [rxStep_eq] at h

/-- Settles O7: of the operand's levels only the symbol sampled next is looked at. -/
theorem decodeCountsDownOrTakesTheNextSample : Obligations.DecodeCountsDownOrTakesTheNextSample := by
  intro d s
  refine ⟨fun hp hc => ?count, fun hp hc => ?first, fun i j hij hp hb hc => ?next⟩
  case count =>
    rw [exec_decode, decodeTick_of_counting _ _ (by rcases hp with hp | hp <;> simp [hp]) hc]
    rfl
  case first =>
    rw [exec_decode, decodeTick_of_settled _ _ hp hc, levelPresented, hp]
    rfl
  case next =>
    have hl : levelPresented d s.rx = dataSymbol d j := by simp [levelPresented, hp, hb, nextSymbol_eq_some hij]
    have ht : decodeTick s.tickScale (dataSymbol d j) s.rx = (s.rx.sample s.tickScale j (dataSymbol d j), []) := by
      simp [decodeTick, hp, Nat.not_lt.2 hc, hb, nextSymbol_eq_some hij]
    rw [exec_decode, hl, ht]
    simp [Receive.sample, accumulate, State.setRx, State.emitAll, hp]

/-- Settles O18: both operations set receive elements and emit receive events, and nothing more. -/
theorem frameOfTheReceiveOperations : Obligations.FrameOfTheReceiveOperations := by
  refine ⟨fun d s => ⟨_, exec_decode d s, ?_⟩, fun s => ?_⟩
  · have hreg (hp : publishDue s.rx = false) := decodeTick_reg_of_not_publishDue s.tickScale (levelPresented d s.rx)
      (Bool.not_eq_true _ ▸ hp)
    simpa [decodeTick_detPrev] using hreg
  · by_cases hp : publishDue s.rx = true
    · exact ⟨_, exec_publish_of_due hp, by simp [State.emitAll, readsOf, transmitEvents, eventsOf, Event.isTransmit]⟩
    · exact ⟨s, exec_publish_of_not_due hp, by simp⟩

/-! Steps. -/

/-- A step in which PUBLISH is due is the return from the edge interrupt and the tracking of DET. -/
theorem step_rx_of_publishDue {s t : State} (hr : (currentInput s).rst = false) (hp : publishDue s.rx = true)
    (h : step s = .next t) : t.rx = { s.rx.returnFromEdge with detPrev := detOf (currentInput s) s } := by
  rw [step_rx_of_noReset hr h, rxStep_eq, decodeTick_of_publishDue _ _ hp]

/-- Settles O15: outside reset RXREG changes where PUBLISH is due, and there it takes RX_ACC. -/
theorem onlyPublishOrResetChangesTheReceiveRegister : Obligations.OnlyPublishOrResetChangesTheReceiveRegister := by
  intro s t h hne
  cases hr : (currentInput s).rst with
  | true => exact .inl rfl
  | false =>
    by_cases hp : publishDue s.rx = true
    · exact .inr ⟨publish_mem_selected_of_due hr hp, by rw [step_rx_of_publishDue hr hp h]; rfl⟩
    · rw [step_rx_of_noReset hr h, rxStep_reg_of_not_publishDue _ _ hp] at hne
      exact absurd rfl hne

/-- Settles O17: the PUBLISH leaves the engine ready with DET_PREV HIGH, and the next tick's fall is an edge. -/
theorem edgeOneTickAfterPublishStartsADecode : Obligations.EdgeOneTickAfterPublishStartsADecode := by
  intro s u hp hN h hhigh hlow
  have hr := noReset_of_run hN (by decide) (run_zero s)
  have hr' := noReset_of_run hN (by decide) ((run_one s).trans h)
  obtain ⟨hk, -, -, -, hclock⟩ := tickWith_elements hr h
  have hready : ReadyToReceive u := by
    rw [ReadyToReceive, step_rx_of_publishDue hr hp h, hhigh]
    exact ⟨rfl, rfl, rfl⟩
  have hdone : receiveEvents u.log = (s.clock, .rxDone s.rx.acc) :: receiveEvents s.log := by
    rw [tickWith_receiveEvents hr h, rxStep_eq, decodeTick_of_publishDue _ _ hp]
    rfl
  obtain ⟨t, ht, hdec⟩ := step_enters_decode hr' hready hlow
  exact ⟨t, ht, hdec.phase, by rw [hdec.cnt, hk], by rw [hdec.events, hdone, hclock]⟩

/-- Settles O13: with DET_PREV LOW there is no edge, and while DET is LOW it stays LOW. -/
theorem noDecodeWhileTheLineStaysDark : Obligations.NoDecodeWhileTheLineStaysDark := by
  intro n s hp hv hl hN
  induction n with
  | zero => exact ⟨s, run_zero s, rfl, rfl⟩
  | succ n ih =>
    obtain ⟨u, hu, hrx, hev⟩ := ih (fun j hj => hl j (Nat.lt_succ_of_lt hj)) fun j hj => hN j (Nat.lt_succ_of_lt hj)
    obtain ⟨t, ht, -, hrx', hev'⟩ := step_receive (noReset_of_run hN (Nat.lt_succ_self n) hu)
    rw [hl n (Nat.lt_succ_self n) u hu, hrx, decodeTick_of_no_edge _ hp (by simp [edge, hv])] at hrx' hev'
    exact ⟨t, (run_succ_right hu).trans ht, by rw [hrx', ← hv], hev'.trans hev⟩

end Sys2Proof.Machine

/-! ## Proofs: what a READ returns over time (43_endpoint.md section 2) -/

namespace Sys2Proof.Machine

/-- Settles O25: the READs are served before the engines run, and the PUBLISH takes RX_ACC. -/
theorem readsInThePublishTickReturnTheOldByte : Obligations.ReadsInThePublishTickReturnTheOldByte := by
  intro s hr hp
  obtain ⟨t, ht⟩ := tickWith_total (currentInput s) s
  exact ⟨t, ht, tickWith_readsOf hr ht, by rw [step_rx_of_publishDue hr hp ht]; rfl⟩

/-- Settles O26: the run leaves RXREG as it was, and a READ returns RXREG. -/
theorem repeatedReadsReturnTheSameByte : Obligations.RepeatedReadsReturnTheSameByte := by
  intro n s t h hq
  rw [exec_read, State.observe, run_keeps_reg h hq]

/-- Settles O4: a reset tick leaves RXREG at the byte the numbering of the draws gives it. -/
theorem heldResetKeepsTheDrawnByte : Obligations.HeldResetKeepsTheDrawnByte := by
  intro s hr
  have hreg : (Receive.reset (rxregResetFor s)).reg = rxregResetFor s := rfl
  obtain ⟨t, ht⟩ := tickWith_total (currentInput s) s
  obtain ⟨-, -, hrx, -⟩ := step_elements_of_reset hr ht
  rw [← hrx] at hreg
  exact ⟨t, ht, fun h0 => hreg.trans (if_pos h0), fun h0 => hreg.trans (if_neg h0)⟩

end Sys2Proof.Machine

/-! ## Proofs: single operations of the transmit engine (42_sequencer.md section 2) -/

namespace Sys2Proof.Machine

theorem exec_write_accepted (b : Byte) (bs : List Byte) {s : State} (hp : s.tx.phase = .idle) :
    exec (.write (b :: bs)) s
      = .next (s.setTx (Transmit.startFrame s.tickScale 0 b { s.tx with buf := b :: bs })) := by
  simp [exec, execWrite, wrReady, hp]

/-- Settles O27: the accepted WRITE copies the buffer and starts the frame of its first byte. -/
theorem acceptedWriteCopiesTheBufferAndStartsItsFirstFrame :
    Obligations.AcceptedWriteCopiesTheBufferAndStartsItsFirstFrame :=
  fun b bs _ hp => exec_write_accepted b bs hp

theorem encodeTick_frame (k : Nat) (b : Byte) (tx : Transmit) :
    (encodeTick k b tx).cur = tx.cur ∧ (encodeTick k b tx).buf = tx.buf ∧ (encodeTick k b tx).idx = tx.idx := by
  by_cases hc : 1 < tx.cnt
  · cases hp : tx.phase <;> simp [encodeTick, hp, hc]
  · cases hp : tx.phase <;> cases hn : nextSymbol tx.bit <;> simp [encodeTick, hp, hc, hn]

/-- SEQ keeps TX_BIT and TX_BUF and emits transmit events alone. -/
theorem seqTick_frame (k : Nat) (buf : List Byte) (tx : Transmit) :
    (seqTick k buf tx).1.bit = tx.bit ∧ (seqTick k buf tx).1.buf = tx.buf
      ∧ (seqTick k buf tx).2.filter (fun e => !e.isTransmit) = [] := by
  by_cases hc : 1 < tx.cnt
  · cases hp : tx.phase <;> simp [seqTick, hp, hc]
  · cases hp : tx.phase <;> cases hn : buf[tx.idx + 1]? <;> simp [seqTick, hp, hc, hn, Event.isTransmit]

/-- Settles O30: each of the three sets transmit elements and emits transmit events, and nothing more. -/
theorem frameOfTheTransmitOperations : Obligations.FrameOfTheTransmitOperations := by
  refine ⟨fun b s => ?encode, fun buf s => ?seq, fun buf s => ?write⟩
  case encode => exact ⟨_, exec_encode b s, by simp [encodeTick_frame]⟩
  case seq => exact ⟨_, exec_seq buf s, by simp [seqTick_frame]⟩
  case write =>
    by_cases hp : s.tx.phase = .idle
    · cases buf with
      | nil => exact ⟨_, exec_write_empty hp, by simp [State.emitAll, readsOf, receiveEvents, eventsOf, Event.isTransmit]⟩
      | cons b bs => exact ⟨_, exec_write_accepted b bs hp, by simp⟩
    · exact ⟨s, exec_write_of_busy buf hp, by simp⟩

end Sys2Proof.Machine

/-! ## Proofs: which operations a tick runs (30_encoding.md section 3) -/

namespace Sys2Proof.Machine

/-- ENCODE, SEQ and WRITE are selected in their phases, as the operation map divides them. -/
theorem mem_selectTransmit (i : Instr) (wr : Option (List Byte)) (tx : Transmit) :
    i ∈ selectTransmit wr tx ↔ (tx.phase = .idle ∧ ∃ buf, wr = some buf ∧ i = .write buf)
      ∨ ((tx.phase = .start ∨ tx.phase = .data ∨ (tx.phase = .stop ∧ 1 < tx.cnt)) ∧ i = .encode tx.cur)
      ∨ (((tx.phase = .stop ∧ tx.cnt ≤ 1) ∨ tx.phase = .cool) ∧ i = .seq tx.buf) := by
  cases hp : tx.phase with
  | idle => cases wr <;> simp [selectTransmit, hp]
  | stop => by_cases hc : 1 < tx.cnt <;> simp [selectTransmit, hp, hc, Nat.not_le.2, Nat.le_of_not_lt]
  | _ => simp [selectTransmit, hp]

theorem decode_mem_selected_of_idle {inp : Input} {s : State} (hr : inp.rst = false) (hp : s.rx.phase = .idle) :
    (∃ d, Instr.decode d ∈ selected inp s) ↔ edge s.rx (detOf inp s) = true := by
  have hnot : publishDue s.rx = false := by simp [publishDue, hp]
  simp [selected_of_noReset s hr, mem_selectReceive, mem_selectTransmit, hp, hnot]

theorem publish_mem_selected {inp : Input} (s : State) (hr : inp.rst = false) :
    Instr.publish ∈ selected inp s ↔ publishDue s.rx = true := by
  simp [selected_of_noReset s hr, mem_selectReceive, mem_selectTransmit]

/-- An operation of the transmit engine is selected outside reset where its map has it. -/
theorem transmit_mem_selected {inp : Input} {s : State} (hr : inp.rst = false) {i : Instr} (hread : i ≠ .read)
    (hpub : i ≠ .publish) (hdec : ∀ d, i ≠ .decode d) : i ∈ selected inp s ↔ i ∈ selectTransmit inp.wr s.tx := by
  simp [selected_of_noReset s hr, mem_selectReceive, hread, hpub, hdec]

/-- Under the invariant PUBLISH is due exactly at the last tick of the last wait (30_encoding.md R78). -/
theorem publishDue_iff_of_inv {k : Nat} {rx : Receive} (h : ReceiveInv k rx) :
    publishDue rx = true ↔ rx.phase = .wait ∧ rx.bit = 7 ∧ rx.cnt = 1 := by
  obtain ⟨-, -, -, hwait⟩ := h
  rw [publishDue_iff]
  refine and_congr_right fun hp => and_congr (by omega) ?_
  obtain ⟨hpos, -⟩ := hwait hp
  omega

/-- Settles O33, operation by operation. -/
theorem operationsAreSelectedOnTheirConditions : Obligations.OperationsAreSelectedOnTheirConditions := by
  rintro s inp ⟨hk, hrx, -, -, -, -, hbusy, -⟩
  refine ⟨?read, ?reset, fun hr => ⟨?decode, ?publish, fun b => ?encode, fun buf => ?seq, fun buf => ?write⟩⟩
  case read =>
    cases hr : inp.rst with
    | true => simp [selected, hr, Nat.pos_iff_ne_zero]
    | false => simp [selected_of_noReset s hr, mem_selectTransmit, mem_selectReceive, Nat.pos_iff_ne_zero]
  case reset =>
    cases hr : inp.rst with
    | true => simp [selected, hr]
    | false => simp [selected_of_noReset s hr, mem_selectTransmit, mem_selectReceive]
  case decode =>
    rw [exists_and_right, and_comm, ← edge_iff]
    exact and_congr_right (decode_mem_selected_of_idle hr)
  case publish => exact (publish_mem_selected s hr).trans (publishDue_iff_of_inv hrx)
  case encode =>
    rw [transmit_mem_selected (i := .encode b) hr nofun nofun nofun, mem_selectTransmit]
    simp [and_comm]
  case seq =>
    have hone (hp : s.tx.phase = .stop) : s.tx.cnt ≤ 1 ↔ s.tx.cnt = 1 := by
      obtain ⟨hpos, -⟩ := hbusy (by simp [hp])
      omega
    rw [transmit_mem_selected (i := .seq buf) hr nofun nofun nofun, mem_selectTransmit, and_congr_right hone]
    simp [and_comm]
  case write =>
    rw [transmit_mem_selected (i := .write buf) hr nofun nofun nofun, mem_selectTransmit]
    simp [and_comm]

/-! Operations that are neither selected nor in progress. -/

theorem encodeTick_of_not_encoding (k : Nat) (b : Byte) {tx : Transmit}
    (hp : tx.phase = .idle ∨ tx.phase = .cool ∨ (tx.phase = .stop ∧ tx.cnt ≤ 1)) : encodeTick k b tx = tx := by
  rcases hp with hp | hp | ⟨hp, hc⟩
  · simp [encodeTick, hp]
  · simp [encodeTick, hp]
  · simp [encodeTick, hp, Nat.not_lt.2 hc]

theorem seqTick_of_not_sequencing (k : Nat) (buf : List Byte) {tx : Transmit}
    (hp : tx.phase = .idle ∨ tx.phase = .start ∨ tx.phase = .data ∨ (tx.phase = .stop ∧ 1 < tx.cnt)) :
    seqTick k buf tx = (tx, []) := by
  rcases hp with hp | hp | hp | ⟨hp, hc⟩
  · simp [seqTick, hp]
  · simp [seqTick, hp]
  · simp [seqTick, hp]
  · simp [seqTick, hp, hc]

/-- Settles O34, operation by operation. -/
theorem operationsNotSelectedDoNothing : Obligations.OperationsNotSelectedDoNothing := by
  intro s
  refine ⟨fun d hp hmask => ?decode, fun hnot => ?publish, fun b hp => ?encode, fun buf hp => ?seq⟩
  case decode =>
    have he (det : Level) : edge s.rx det = false := by rcases hmask with h | h <;> simp [edge, h]
    rw [exec_decode, decodeTick_of_no_edge _ hp (he _)]
    rfl
  case publish =>
    refine exec_publish_of_not_due (mt (publishDue_iff s.rx).1 ?_)
    rintro ⟨hp, hb, hc⟩
    rcases hnot with h | h | h
    · exact h hp
    · exact h (by omega)
    · omega
  case encode => rw [exec_encode, encodeTick_of_not_encoding _ b hp]
  case seq => rw [exec_seq, seqTick_of_not_sequencing _ buf hp]; rfl

end Sys2Proof.Machine

/-! ## Proofs: the step as a whole (44_block_step.md) -/

namespace Sys2Proof.Machine

/-- Settles O31: the operations run to a state, and the end of the tick is written out. -/
theorem stepRunsTheSelectedOperations : Obligations.StepRunsTheSelectedOperations := by
  intro s
  obtain ⟨t, ht⟩ := runAll_total (selected (currentInput s) s) s
  have hstep : step s = .next (endTick (currentInput s) s t) := tickWith_eq ht
  exact ⟨t, ht, fun hr => by rw [hstep, endTick, hr], fun hr => by rw [hstep, endTick, hr]⟩

/-- Settles O35: outside reset the tick is TxStep and RxStep with their events in order, and a reset tick is the reset
state; the READs come before either. -/
theorem stepIsTheSpecsBlockStep : Obligations.StepIsTheSpecsBlockStep := by
  intro s
  obtain ⟨t, ht⟩ := tickWith_total (currentInput s) s
  cases hr : (currentInput s).rst with
  | true =>
    obtain ⟨hk, htx, hrx, hin, hclock, hlog⟩ := step_elements_of_reset hr ht
    exact ⟨t, _, _, _, ht, rfl, htx, by rw [hrx]; rfl, by simp [hlog], by simp [hlog], hk, hin, hclock⟩
  | false =>
    obtain ⟨hk, htx, hrx, hin, hclock⟩ := tickWith_elements hr ht
    exact ⟨t, _, _, _, ht, rfl, htx, hrx, tickWith_eventsOf hr ht, tickWith_readsOf hr ht, hk, hin, hclock⟩

/-- Settles O38: in both steps the transmit engine does TxStep on the same elements under the same WR, or the reset. -/
theorem transmitDoesNotDependOnReceive : Obligations.TransmitDoesNotDependOnReceive := by
  intro s s' t t' hk htx hclock hwr hrst hev h h'
  cases hr : (currentInput s).rst with
  | true =>
    obtain ⟨-, htx₁, -, -, -, hlog₁⟩ := step_elements_of_reset hr h
    obtain ⟨-, htx₂, -, -, -, hlog₂⟩ := step_elements_of_reset (hrst ▸ hr) h'
    exact ⟨by rw [htx₁, htx₂], by simpa [hlog₁, hlog₂] using hev⟩
  | false =>
    have hr' := hrst ▸ hr
    obtain ⟨-, htx₁, -⟩ := tickWith_elements hr h
    obtain ⟨-, htx₂, -⟩ := tickWith_elements hr' h'
    exact ⟨by rw [htx₁, htx₂, hk, hwr, htx],
      by rw [tickWith_transmitEvents hr h, tickWith_transmitEvents hr' h', hk, hwr, htx, hclock, hev]⟩

/-- Settles O39: in both steps the receive engine does RxStep on the same elements at the same level of DET. -/
theorem receiveDoesNotDependOnTransmit : Obligations.ReceiveDoesNotDependOnTransmit := by
  intro s s' t t' hk hrx hclock hdet hr hr' hev h h'
  obtain ⟨-, -, hrx₁, -⟩ := tickWith_elements hr h
  obtain ⟨-, -, hrx₂, -⟩ := tickWith_elements hr' h'
  exact ⟨by rw [hrx₁, hrx₂, hk, hdet, hrx],
    by rw [tickWith_receiveEvents hr h, tickWith_receiveEvents hr' h', hk, hdet, hrx, hclock, hev]⟩

/-! Presented operations (log entry 9). -/

/-- Where one operation alone is selected the step is that operation and the end of the tick. -/
theorem step_of_selected_singleton {i j : Instr} {s t : State} (hsel : selected (currentInput s) s = [j])
    (hj : exec j s = exec i s) (ht : exec i s = .next t) : step s = .next (endTick (currentInput s) s t) := by
  refine tickWith_eq ?_
  rw [hsel, runAll, hj, ht]
  rfl

/-- An idle engine is presented the start symbol of every frame. -/
theorem exec_decode_of_idle (d d' : Byte) {s : State} (hp : s.rx.phase = .idle) :
    exec (.decode d) s = exec (.decode d') s := by
  rw [exec_decode, exec_decode, levelPresented, levelPresented, hp]

/-- The first input of a presented frame is its start symbol. -/
theorem currentInput_present_decode (d : Byte) {s : State} (hk : 0 < s.tickScale) :
    currentInput (present (.decode d) s) = { quietInput with det := .level .low } := by
  obtain ⟨n, hn⟩ := Nat.exists_eq_add_one_of_ne_zero (nUnit_pos hk).ne'
  simp [present, currentInput, frameInputs, hn, List.replicate_succ, frameSymbol]

/-- The operation that the map selects when `i` is presented: a DECODE's operand is the level of this tick. -/
def presentedOp : Instr → Instr
  | .decode _ => .decode (lineHeld .low)
  | i => i

theorem selected_present (i : Instr) {s : State} (hk : 0 < s.tickScale) :
    selected (currentInput (present i s)) (present i s) = [presentedOp i] := by
  cases i with
  | decode d => rw [currentInput_present_decode d hk]; rfl
  | publish => rfl
  | encode b => rfl
  | seq buf => rfl
  | read => rfl
  | write buf => rfl
  | reset => rfl

theorem exec_presentedOp (i : Instr) (s : State) : exec (presentedOp i) (present i s) = exec i (present i s) := by
  cases i with
  | decode d => exact exec_decode_of_idle _ _ rfl
  | _ => rfl

/-- Settles O32: what is presented is all that is selected, and a frame's bits decode to its byte. -/
theorem stepRunsThePresentedOperation : Obligations.StepRunsThePresentedOperation := by
  refine ⟨fun i s hk => ?_, fun d s => ?_⟩
  · obtain ⟨t, ht⟩ := exec_total i (present i s)
    exact ⟨t, ht, step_of_selected_singleton (selected_present i hk) (exec_presentedOp i s) ht⟩
  · have hword : decodeTableWord 16 (frameWord d).toNat = some (.decode d) := by
      simp [decodeTableWord, (frameWord d).isLt, decodeForm_detector_frameWord]
    rw [State.withFetchWord, presentTableWord, hword]

end Sys2Proof.Machine
